-- ==== Sys2Proof/Word.lean ====
section
/-! DEFINITION. Word.lean: the bit vectors that cross the block's ports or sit in its registers
(10_state.md R21, R25 to R31; 20_memory.md R59). -/

namespace Sys2Proof

/-- An element of the block buffer and of the output stream (R50, R59: 8 bits). -/
abbrev Byte := BitVec 8

/-- One word of the command port (R80: one length, 10 bits). -/
abbrev CmdWord := BitVec 10

/-- The operand of `PIX` (R11, R82: 8 bits, unsigned). -/
abbrev Pixel := BitVec 8

/-- The operand of `START` and the register `DEPTH` (R25, R81: 4 bits, unsigned). -/
abbrev DepthField := BitVec 4

/-- A code as the dictionary and `PREFIX` hold it (R27, R32, R87: 12 bits). -/
abbrev Code := BitVec 12

end Sys2Proof
end

