-- ==== Sys2Proof/Syntax.lean ====
section
/-! DEFINITION. Syntax.lean: the command set, one constructor per row of spec/opcode_table.json. -/

namespace Sys2Proof

/-- An accepted command word, read by 30_encoding.md R85. -/
inductive Instr where
  /-- `START d`: begin a raster at effective bit depth `d` (R81, R110). -/
  | start (d : DepthField)
  /-- `PIX p` (long name `PIXEL`): the next pixel of the raster (R82, R113). -/
  | pix (p : Pixel)
  /-- `FINISH`: the raster is exhausted (R83, R116). -/
  | finish
  /-- `ILLEGAL`: any word that is none of the three commands; it carries the word itself (R85, R86). -/
  | illegal (w : CmdWord)
  deriving DecidableEq, Repr

end Sys2Proof
end

