-- ==== Sys2Proof/WellFormed.lean ====
section
/-! DEFINITION. WellFormed.lean: which terms of `Instr` are readings of a command word. Every depth operand and
every pixel operand is a legal encoding (R81, R82); an `illegal` term is one exactly when its word matches none of
the three rows of the opcode table (R85, R86). -/

namespace Sys2Proof

/-- One row of the opcode table: a word belongs to it when its bits under `mask` are `pattern`. -/
structure OpcodeRow where
  mnemonic : String
  mask : CmdWord
  pattern : CmdWord
  deriving DecidableEq, Repr

/-- The word belongs to the row. -/
def OpcodeRow.has (r : OpcodeRow) (w : CmdWord) : Bool := w &&& r.mask == r.pattern

/-- R81: match `0x000`, mask `0x3F0`. -/
def OpcodeRow.start : OpcodeRow := ⟨"START", 0x3F0#10, 0x000#10⟩

/-- R82: match `0x100`, mask `0x300`. -/
def OpcodeRow.pix : OpcodeRow := ⟨"PIX", 0x300#10, 0x100#10⟩

/-- R83: match `0x200`, mask `0x3FF`. -/
def OpcodeRow.finish : OpcodeRow := ⟨"FINISH", 0x3FF#10, 0x200#10⟩

/-- R81 to R83, R98: the rows that name a command. The table's fourth row, `ILLEGAL`, is every word that matches none
of them (its note), not only the words with `op = 0b11`. -/
def commandRows : List OpcodeRow := [OpcodeRow.start, OpcodeRow.pix, OpcodeRow.finish]

/-- The term is the reading of some command word. -/
def Instr.wf : Instr → Bool
  | .start _ => true
  | .pix _ => true
  | .finish => true
  | .illegal w => commandRows.all fun r => !r.has w

end Sys2Proof
end

