-- ==== Sys2Proof/Decode.lean ====
section
/-! DEFINITION. Decode.lean: from command words to instructions (30_encoding.md R80 to R86) and back. -/

namespace Sys2Proof

/-- R80: bits 9:8 of a command word. -/
def opField (w : CmdWord) : BitVec 2 := w.extractLsb' 8 2

/-- R80: bits 7:0 of a command word. -/
def argField (w : CmdWord) : BitVec 8 := w.extractLsb' 0 8

/-- R85: decoding a 10-bit word is total; what names no command is `ILLEGAL`. -/
def decodeWord (w : CmdWord) : Instr :=
  match (opField w).toNat with
  | 0 => if (argField w).extractLsb' 4 4 = 0#4 then .start ((argField w).extractLsb' 0 4) else .illegal w
  | 1 => .pix (argField w)
  | 2 => if argField w = 0#8 then .finish else .illegal w
  | _ => .illegal w

/-- Why a byte string carries no command word. -/
inductive DecodeError where
  /-- A command word is carried in exactly two bytes (log entry 9). -/
  | notTwoBytes (found : Nat)
  /-- The port has ten wires (R21): bits 15:10 of the two bytes must be 0. -/
  | widerThanPort (upper : Byte)
  deriving DecidableEq, Repr

/-- The command word in two bytes, bit 0 of the word in bit 0 of the first byte (log entry 9). Any other byte string
is refused by name. -/
def wordOfBytes : List Byte → Except DecodeError CmdWord
  | [lo, hi] => if hi.toNat < 4 then .ok (hi.extractLsb' 0 2 ++ lo) else .error (.widerThanPort hi)
  | bs => .error (.notTwoBytes bs.length)

/-- Decoding, total on byte strings. -/
def decodeBytes (bs : List Byte) : Except DecodeError Instr := (wordOfBytes bs).map decodeWord

/-- The two bytes that carry the low 16 bits of `v`, the low byte first. -/
def bytesOfNat (v : Nat) : List Byte := [BitVec.ofNat 8 v, BitVec.ofNat 8 (v / 256)]

/-- The command word that the low `nbits` bits of `w` spell, if they fit the command port. -/
def tableCmdWord (nbits w : Nat) : Option CmdWord :=
  if w % 2 ^ nbits < 2 ^ 16 then (wordOfBytes (bytesOfNat (w % 2 ^ nbits))).toOption else none

/-- The instruction read from the bits `w` as spec/opcode_table.json numbers them. -/
def decodeTableWord (nbits w : Nat) : Option Instr := (tableCmdWord nbits w).map decodeWord

/-- The command word of a well-formed instruction, from the encodings of R81 to R83; an `illegal` term carries its own
word. -/
def encode : Instr → CmdWord
  | .start d => (0b000000#6 ++ d : BitVec 10)
  | .pix p => (0b01#2 ++ p : BitVec 10)
  | .finish => 0x200#10
  | .illegal w => w

end Sys2Proof
end

