-- ==== Sys2Proof/Config.lean ====
section
/-! DEFINITION. Config.lean: the implementation parameters of 00_scope.md R9 to R13, the sizes of the two private spaces
whose elements are numbered (20_memory.md R50), and the one value the spec leaves open. `HSIZE` (R14) is unobservable
and is no parameter. -/

namespace Sys2Proof

/-- R9: `MAX_BITS`, the widest code. -/
abbrev Config.maxBits : Nat := 12

/-- R10: `BLOCK_MAX`, the most data bytes of a sub-block (named constant with the source's value, D20). -/
abbrev Config.blockMax : Nat := 254

/-- R12: the smallest legal effective bit depth. -/
abbrev Config.depthMin : Nat := 2

/-- R12: the largest legal effective bit depth. -/
abbrev Config.depthMax : Nat := 8

/-- R13: the default of the parameter `EMIT_MCS`. The value of one block stands in `State.emitMcs`
(log entry 3), so every statement about the machine covers both choices. -/
def Config.emitMcsDefault : Bool := true

/-- R30, R50: `ACC` has bit positions 0 to 18 and no others. -/
abbrev Config.accBits : Nat := 19

/-- R38, V4 (`any value`): what `BLK[i]` holds after a reset until a byte is stored there, a free value: nothing
constrains it. `n` numbers the resets, so that no two resets need leave the same contents. DESIGN CHOICE, safe (log
entry 1). -/
opaque Config.blkUnspecified (n i : Nat) : BitVec 8

end Sys2Proof
end

