-- ==== Sys2Proof/Machine/State.lean ====
section
/-! DEFINITION. Machine/State.lean: everything the spec gives the machine, as plain data (10_state.md). -/

namespace Sys2Proof.Machine

/-- R23: `PHASE`, the block's mode of operation. Its 2-bit values are `Phase.bits` (Flags.lean). -/
inductive Phase where
  /-- 0: after reset, no compression begun. -/
  | idle
  /-- 1: a raster is being compressed. -/
  | run
  /-- 2: the last raster's output is complete, terminator included. -/
  | done
  /-- 3: a fault was raised; absorbing until reset. -/
  | err
  deriving DecidableEq, Repr

/-- R24, R170: the values `ERRCODE` takes. Its 3-bit values are `ErrCode.bits` (Flags.lean); 6 and 7 are never
recorded. -/
inductive ErrCode where
  /-- 0: no fault since reset. -/
  | none
  /-- 1, `ERR_CMD`: an illegal word. -/
  | cmd
  /-- 2, `ERR_SEQ`: a command not legal in the current phase. -/
  | seq
  /-- 3, `ERR_DEPTH`: `START d` with `d` outside 2 to 8. -/
  | depth
  /-- 4, `ERR_RANGE`: `PIX p` with `p >= 2^DEPTH`. -/
  | range
  /-- 5, `ERR_EMPTY`: `FINISH` with no pixel since `START`. -/
  | empty
  deriving DecidableEq, Repr

/-- What the world outside the core can do at the ports in one step (R20, R21): the host at the command port, the
consumer at the output port, the platform at `rst`. -/
inductive PortEvent where
  /-- `cmd_valid = cmd_ready = 1`: the word is accepted (R21, R67). -/
  | accept (w : CmdWord)
  /-- `cmd_valid = 1`, `cmd_ready = 0`: the word is offered and not accepted (R61, R67). -/
  | wait (w : CmdWord)
  /-- `out_ready = 1`: the consumer takes `out_data` if `out_valid = 1` (R21, R59). -/
  | take
  /-- `rst = 1`, with the word the host offers in that cycle, if any (R200, R176). -/
  | rst (offered : Option CmdWord)
  deriving DecidableEq, Repr

/-- Why the MODEL stops. None of these is one of the block's own faults (those are `ErrCode`, taken as a next state by
`raise`): each is an access to a place that the spec says does not exist, and no state that satisfies the invariants of
R37 raises any. Both are safe: the machine stops where the spec gives no effect. -/
inductive Fault where
  /-- Raised by `packBits` when a code's bits would need a bit position of `ACC` above 18 (R30, R50). Safe. -/
  | accOverrun
  /-- Raised by `blkStore` when `BLKCNT >= 254` and by `flushBlock` when `BLKCNT = 255`: there is no such element of
  `BLK` (R31, R56). Safe. -/
  | blkOverrun
  deriving DecidableEq, Repr

/-- Why an instruction has no meaning. -/
inductive Refusal where
  /-- Raised by exec's arm of an instruction that has no meaning yet. Safe. No arm of this model raises it. -/
  | notModelled (mnemonic : String)
  deriving DecidableEq, Repr

/-- What has been stored in the sub-block buffer since reset: `(index, byte)` pairs, indices strictly rising. An
unlisted element holds the free value of `blkRead` (Ops.lean; log entry 1). -/
abbrev BlkMem := List Host.Cell

/-- The dictionary's contents: `(key, code)` pairs, keys strictly rising, an unlisted key being absent (R32; the key of
a pair is `dictKey`, Operands.lean). -/
abbrev Dict := List (Nat × Code)

/-- The architectural state (R39 lists the block's own), the output stream and the ports. -/
structure State where
  /-- R23: `PHASE`. -/
  phase : Phase
  /-- R24: `ERRCODE`. -/
  errcode : ErrCode
  /-- R25: `DEPTH`, the effective bit depth of the raster in progress. -/
  depth : DepthField
  /-- R26: `HAVE_PREFIX`. -/
  havePrefix : Bool
  /-- R27: `PREFIX`, the code of the longest string matched so far. -/
  prefixCode : Code
  /-- R28: `WIDTH`, the number of bits of the next code. -/
  width : BitVec 4
  /-- R29: `NEXT_CODE`, the next dictionary entry's code; 4096 when none is left. -/
  nextCode : BitVec 13
  /-- R30: `ACC`, code bits that do not yet fill a byte; bit 0 is the oldest. -/
  acc : BitVec 19
  /-- R30: `NACC`, how many bits `ACC` holds. -/
  nacc : BitVec 5
  /-- R31: `BLK`, the sub-block buffer's 254 elements. -/
  blk : BlkMem
  /-- The model's own, for V4: how many resets have gone by, each leaving `BLK` unspecified anew (log entry 1). -/
  resets : Nat
  /-- R31: `BLKCNT`, how many elements of `BLK` wait to be framed. -/
  blkcnt : BitVec 8
  /-- R32: `DICT`. -/
  dict : Dict
  /-- R34: `OUT`, every byte produced since reset, in order of production. -/
  out : List Byte
  /-- R35 (`OUT_PENDING`), R21: how many bytes of `OUT` the consumer has taken. -/
  taken : Nat
  /-- R20, R21, R50: what the world outside will do at the ports, next event first (log entry 2). -/
  input : List PortEvent
  /-- R13: this block's `EMIT_MCS`, fixed when it is built (log entry 3). -/
  emitMcs : Bool
  deriving DecidableEq, Repr

/-- R38, R200, R201: the block right after reset, nothing offered at its ports, built with the default `EMIT_MCS`. Every
element of `BLK` holds its free value (V4); the count 0 is a DESIGN CHOICE that nothing rests on (log entry 1). -/
def State.reset : State where
  phase := .idle
  errcode := .none
  depth := 0
  havePrefix := false
  prefixCode := 0
  width := 0
  nextCode := 0
  acc := 0
  nacc := 0
  blk := []
  resets := 0
  blkcnt := 0
  dict := []
  out := []
  taken := 0
  input := []
  emitMcs := Config.emitMcsDefault

end Sys2Proof.Machine
end

