-- ==== Sys2Proof/Machine/Flags.lean ====
section
/-! DEFINITION. Machine/Flags.lean: the decodes of the state that the ports show (10_state.md R21, R23, R24, R35, R36).
The block has no arithmetic flags (R36), so nothing here is written by an instruction. -/

namespace Sys2Proof.Machine

/-- R23: the 2-bit value of `PHASE`. -/
def Phase.bits : Phase → BitVec 2
  | .idle => 0
  | .run => 1
  | .done => 2
  | .err => 3

/-- R170: the 3-bit value of `ERRCODE`. -/
def ErrCode.bits : ErrCode → BitVec 3
  | .none => 0
  | .cmd => 1
  | .seq => 2
  | .depth => 3
  | .range => 4
  | .empty => 5

/-- R36: `busy`. -/
def busy (s : State) : Bool := s.phase == .run

/-- R36, R181: `done`. -/
def finished (s : State) : Bool := s.phase == .done

/-- R36, R181: `err`. -/
def faulted (s : State) : Bool := s.phase == .err

/-- R35: `OUT_PENDING`, at least one byte of `OUT` not yet taken. -/
def outPending (s : State) : Bool := s.taken < s.out.length

/-- R21: `out_valid`; the model's port offers a byte whenever one is pending. -/
def outValid (s : State) : Bool := outPending s

/-- R21: `out_data`, the next byte of `OUT` not yet taken. -/
def outData (s : State) : Option Byte := s.out[s.taken]?

/-- R35: the `STATUS` word, bit 7 reserved and 0. -/
def status (s : State) : BitVec 8 :=
  0#1 ++ BitVec.ofBool (outPending s) ++ BitVec.ofBool s.havePrefix ++ s.errcode.bits ++ s.phase.bits

end Sys2Proof.Machine
end

