-- ==== Sys2Proof/Machine/Operands.lean ====
section
/-! DEFINITION. Machine/Operands.lean: how operands are read, and the quantities that are functions of `DEPTH`
(00_scope.md R15; 30_encoding.md R84, R88). Quantities are unsigned naturals (R16); a register's width is restored
where the register is written. -/

namespace Sys2Proof.Machine

/-- R15, R88: `CLEAR = 2^DEPTH`. -/
abbrev clearCode (d : DepthField) : Nat := 2 ^ d.toNat

/-- R15, R88: `EOI = 2^DEPTH + 1`. -/
abbrev eoiCode (d : DepthField) : Nat := 2 ^ d.toNat + 1

/-- R15, R88: `FIRST_FREE = 2^DEPTH + 2`. -/
abbrev firstFree (d : DepthField) : Nat := 2 ^ d.toNat + 2

/-- R15: `INIT_WIDTH = DEPTH + 1`. -/
abbrev initWidth (d : DepthField) : Nat := d.toNat + 1

/-- R15: `CODE_LIMIT = 2^MAX_BITS`. -/
abbrev codeLimit : Nat := 2 ^ Config.maxBits

/-- R12, R173: the operand of `START` is a legal effective bit depth. -/
def depthLegal (d : DepthField) : Bool := Config.depthMin ≤ d.toNat && d.toNat ≤ Config.depthMax

/-- R82, R174: the operand of `PIX` is a palette index at the depth `d`. -/
def pixelInPalette (d : DepthField) (p : Pixel) : Bool := p.toNat < clearCode d

/-- R84: a pixel value becomes a code by zero extension from 8 to 12 bits. -/
def literalCode (p : Pixel) : Code := p.zeroExtend 12

/-- R84: the 20-bit key `p ‖ PREFIX` of the pair `(q, p)`, as a number. -/
def dictKey (q : Code) (p : Pixel) : Nat := (p ++ q).toNat

end Sys2Proof.Machine
end

