-- ==== Sys2Proof/Machine/Ops.lean ====
section
/-! DEFINITION. Machine/Ops.lean: the primitives through which every rule touches the state (00_scope.md R17;
20_memory.md), taking a fault and leaving it (60_exceptions.md R171, R178, R180), and the events at the ports. -/

namespace Sys2Proof.Machine

/-- What an operation answers: the state it leaves, or why the machine stops. -/
abbrev Result := Host.Outcome State Fault Refusal

/-- Statements take effect in the order written (R60): run `f` on the state `r` leaves, if it leaves one. -/
def andThen (r : Result) (f : State → Result) : Result :=
  match r with
  | .next s => f s
  | .fault e => .fault e
  | .refused e => .refused e

/-! ## Storage: finite maps as lists of pairs, keys strictly rising -/

/-- What the map holds at `k`. -/
def Assoc.get {β : Type} (m : List (Nat × β)) (k : Nat) : Option β :=
  match m with
  | [] => none
  | (k', v) :: rest => if k = k' then some v else Assoc.get rest k

/-- The map with `v` at `k`; rising keys stay rising. -/
def Assoc.put {β : Type} (m : List (Nat × β)) (k : Nat) (v : β) : List (Nat × β) :=
  match m with
  | [] => [(k, v)]
  | (k', v') :: rest =>
    if k < k' then (k, v) :: (k', v') :: rest
    else if k = k' then (k, v) :: rest
    else (k', v') :: Assoc.put rest k v

/-- Keys rise strictly, so that equal maps are equal lists. -/
abbrev Assoc.Rising {β : Type} (m : List (Nat × β)) : Prop := m.Pairwise fun x y => x.1 < y.1

/-- The canonical form of the sub-block buffer's contents: rising, and no element beyond the 254 that exist (R31). -/
abbrev Memory.wf (m : BlkMem) : Prop := Assoc.Rising m ∧ ∀ c ∈ m, c.1 < Config.blockMax

/-- The canonical form of the dictionary: rising, and every key a 20-bit key (R50, R51). -/
abbrev Dict.wf (m : Dict) : Prop := Assoc.Rising m ∧ ∀ c ∈ m, c.1 < 2 ^ 20

/-- The byte stored at `BLK[i]`, if any has been since reset. -/
def Memory.read (m : BlkMem) (i : Nat) : Option Byte := Assoc.get m i

/-- `BLK` with `b` at index `i`. -/
def Memory.write (m : BlkMem) (i : Nat) (b : Byte) : BlkMem := Assoc.put m i b

/-! ## The primitives of 20_memory.md -/

/-- R52: `DictLookup(q, p)`. -/
def dictLookup (q : Code) (p : Pixel) (s : State) : Option Code := Assoc.get s.dict (dictKey q p)

/-- R53: `DictInsert(q, p, c)`; the caller raises `NEXT_CODE`. -/
def dictInsert (q : Code) (p : Pixel) (c : Code) (s : State) : State :=
  { s with dict := Assoc.put s.dict (dictKey q p) c }

/-- R54: `DictClear()`. -/
def dictClear (s : State) : State := { s with dict := [] }

/-- R31, R38, V4: what `BLK[i]` holds: the byte stored there, or until then the free value. -/
def blkRead (s : State) (i : Nat) : Byte := (Memory.read s.blk i).getD (Config.blkUnspecified s.resets i)

/-- R31, R55: `BLK[0..BLKCNT-1]`, the bytes that wait to be framed, oldest first. -/
def pendingBytes (s : State) : List Byte := (List.range s.blkcnt.toNat).map (blkRead s)

/-- R56: `BlkStore(b)`. Its precondition is `BLKCNT <= 253`; there is no element to store to beyond it. -/
def blkStore (b : Byte) (s : State) : Result :=
  if s.blkcnt.toNat < Config.blockMax then
    .next { s with blk := Memory.write s.blk s.blkcnt.toNat b, blkcnt := s.blkcnt + 1 }
  else .fault .blkOverrun

/-- R58: `OutAppend`, for a run of bytes in their order. -/
def outAppend (bs : List Byte) (s : State) : State := { s with out := s.out ++ bs }

/-- R27: `PREFIX <- c`. -/
def setPrefix (c : Code) (s : State) : State := { s with prefixCode := c }

/-! ## Faults of the block (60_exceptions.md) -/

/-- R171: `raise E`, the one way a fault is taken. Nothing else changes. -/
def raise (e : ErrCode) (s : State) : State := { s with phase := .err, errcode := e }

/-- R176, the tests that every command shares, in order: in `ERR` the word is discarded (R178); a command not legal in
the phase raises `ERR_SEQ` (R175). -/
def whenLegal (legal : List Phase) (s : State) (k : Result) : Result :=
  if s.phase = .err then .next s
  else if s.phase ∈ legal then k
  else .next (raise .seq s)

/-- R200, R201, and R180's only return from a fault: every register, `DICT`, `BLK` and `OUT` as after reset, `BLK`
unspecified anew (V4). What the world outside will do next and the block's build are not the block's to reset. -/
def applyReset (s : State) : State :=
  { State.reset with resets := s.resets + 1, input := s.input, emitMcs := s.emitMcs }

/-! ## The ports (10_state.md R20, R21) -/

/-- R21, R59, R61: the consumer takes the offered byte, if one is offered. -/
def consumerTake (s : State) : State := if outValid s then { s with taken := s.taken + 1 } else s

/-- R21, R61, R178: `cmd_ready`. The model's `OUT` is unbounded, so a command never waits on it, and `ERR` does not hold
it low. -/
def cmdReady (_ : State) : Bool := true

/-- The next event at the ports, and the state that has seen it; none when nothing is offered. -/
def nextEvent (s : State) : Option (PortEvent × State) :=
  match s.input with
  | [] => none
  | e :: rest => some (e, { s with input := rest })

/-- The state in which `e` is the next event at the ports. -/
def offer (e : PortEvent) (s : State) : State := { s with input := e :: s.input }

end Sys2Proof.Machine
end

