-- ==== Sys2Proof/Machine/BitPacker.lean ====
section
/-! DEFINITION. Machine/BitPacker.lean: bit packing and sub-block framing (42_bit_packer.md R150 to R154). -/

namespace Sys2Proof.Machine

/-- R152: `FlushBlock()`: the length byte, the data bytes oldest first, `BLKCNT <- 0`; nothing when the buffer is
empty. `BLKCNT` never exceeds 254 (R31): there is no element to read beyond. -/
def flushBlock (s : State) : Result :=
  if s.blkcnt = 0 then .next s
  else if s.blkcnt.toNat ≤ Config.blockMax then .next { outAppend (s.blkcnt :: pendingBytes s) s with blkcnt := 0 }
  else .fault .blkOverrun

/-- R151: `PutByte(b)`: a block is written out the moment its last byte arrives. -/
def putByte (b : Byte) (s : State) : Result :=
  andThen (blkStore b s) fun t => if t.blkcnt.toNat = Config.blockMax then flushBlock t else .next t

/-- R150: the loop of `PackBits`, for at most the given number of turns. -/
def packLoop : Nat → State → Result
  | 0, s => .next s
  | n + 1, s =>
    if 8 ≤ s.nacc.toNat then
      andThen (putByte (s.acc.extractLsb' 0 8) s) fun t =>
        packLoop n { t with acc := t.acc >>> 8, nacc := t.nacc - 8 }
    else .next s

/-- R150: `PackBits(c, w)`. The loop makes `(NACC + w) div 8` turns. `ACC` has 19 bit positions (R30); bits that would
need more have nowhere to go. -/
def packBits (c w : Nat) (s : State) : Result :=
  let acc := s.acc.toNat + c <<< s.nacc.toNat
  let nacc := s.nacc.toNat + w
  if acc < 2 ^ Config.accBits ∧ nacc ≤ Config.accBits then
    packLoop (nacc / 8) { s with acc := BitVec.ofNat 19 acc, nacc := BitVec.ofNat 5 nacc }
  else .fault .accOverrun

/-- R153: `Drain()`. -/
def drain (s : State) : Result :=
  if 0 < s.nacc.toNat then
    andThen (putByte (s.acc.extractLsb' 0 8) s) fun t => .next { t with acc := 0, nacc := 0 }
  else .next s

/-- R154: `Terminate()`. -/
def terminate (s : State) : State := outAppend [0x00#8] s

end Sys2Proof.Machine
end

