-- ==== Sys2Proof/Machine/CodeWriter.lean ====
section
/-! DEFINITION. Machine/CodeWriter.lean: the variable-width code writer (41_code_writer.md R130 to R136). -/

namespace Sys2Proof.Machine

/-- R132: `WidthUpdate()`. -/
def widthUpdate (s : State) : State :=
  if s.width.toNat < Config.maxBits ∧ 2 ^ s.width.toNat ≤ s.nextCode.toNat then { s with width := s.width + 1 } else s

/-- R131: `EmitCode(c)`: the code at the width in force, then the width update. -/
def emitCode (c : Code) (s : State) : Result :=
  andThen (packBits c.toNat s.width.toNat s) fun t => .next (widthUpdate t)

/-- R15, R54, R134: an empty dictionary and the code writer as just after a clear code. -/
def freshTable (s : State) : State :=
  { dictClear s with
    nextCode := BitVec.ofNat 13 (firstFree s.depth)
    width := BitVec.ofNat 4 (initWidth s.depth) }

/-- R134: `ClearAndReset()`: `CLEAR` at the width in force, then the table reset. -/
def clearAndReset (s : State) : Result :=
  andThen (packBits (clearCode s.depth) s.width.toNat s) fun t => .next (freshTable t)

/-- R136: `EmitEOI()`: no width update follows. -/
def emitEOI (s : State) : Result := packBits (eoiCode s.depth) s.width.toNat s

end Sys2Proof.Machine
end

