-- ==== Sys2Proof/Machine/DictionaryBuilder.lean ====
section
/-! DEFINITION. Machine/DictionaryBuilder.lean: the meanings of the commands (40_dictionary_builder.md R110 to R116,
60_exceptions.md R172). -/

namespace Sys2Proof.Machine

/-- R110: the registers that `START d` initialises, before it writes anything out. -/
def startRegisters (d : DepthField) (s : State) : State :=
  freshTable
    { s with
      phase := .run
      depth := d
      havePrefix := false
      prefixCode := 0
      acc := 0
      nacc := 0
      blkcnt := 0 }

/-- R110: the minimum-code-size byte, if this block writes it (R13). -/
def emitMinCodeSize (s : State) : State := if s.emitMcs then outAppend [s.depth.zeroExtend 8] s else s

/-- R110: `START d` when no check fails. -/
def startRaster (d : DepthField) (s : State) : Result :=
  packBits (clearCode d) (initWidth d) (emitMinCodeSize (startRegisters d s))

/-- R110: `START d`. -/
def execStart (d : DepthField) (s : State) : Result :=
  whenLegal [.idle, .done] s <|
    if depthLegal d then startRaster d s else .next (raise .depth s)

/-- R113 case C1: the pair gets the next code, and `NEXT_CODE` rises. -/
def extendDict (q : Code) (p : Pixel) (s : State) : State :=
  { dictInsert q p (s.nextCode.setWidth 12) s with nextCode := s.nextCode + 1 }

/-- R113 case C, R114: a novel pair. The width update inside `emitCode` sees `NEXT_CODE` before the insertion. -/
def novelPair (p : Pixel) (s : State) : Result :=
  andThen (emitCode s.prefixCode s) fun t =>
    andThen (if t.nextCode.toNat < codeLimit then .next (extendDict s.prefixCode p t) else clearAndReset t) fun u =>
      .next (setPrefix (literalCode p) u)

/-- R113: `PIX p` when no check fails: case A, B or C. -/
def consumePixel (p : Pixel) (s : State) : Result :=
  if s.havePrefix then
    match dictLookup s.prefixCode p s with
    | some c => .next (setPrefix c s)
    | none => novelPair p s
  else .next { setPrefix (literalCode p) s with havePrefix := true }

/-- R113: `PIX p`. -/
def execPix (p : Pixel) (s : State) : Result :=
  whenLegal [.run] s <|
    if pixelInPalette s.depth p then consumePixel p s else .next (raise .range s)

/-- R116: `FINISH` when no check fails. -/
def finishRaster (s : State) : Result :=
  andThen (emitCode s.prefixCode s) fun t =>
    andThen (emitEOI t) fun t =>
      andThen (drain t) fun t =>
        andThen (flushBlock t) fun t =>
          .next { terminate t with havePrefix := false, phase := .done }

/-- R116: `FINISH`. -/
def execFinish (s : State) : Result :=
  whenLegal [.run] s <|
    if s.havePrefix then finishRaster s else .next (raise .empty s)

/-- R86, R172, R178: an illegal word raises `ERR_CMD` in every phase but `ERR`, which discards it. The word itself is not
kept (R170). -/
def execIllegal (_ : CmdWord) (s : State) : Result :=
  if s.phase = .err then .next s else .next (raise .cmd s)

end Sys2Proof.Machine
end

