-- ==== Sys2Proof/Machine/Step.lean ====
section
/-! DEFINITION. Machine/Step.lean: one step of the machine is one event at its ports (10_state.md R20, R21; 20_memory.md
R59, R60, R67). -/

namespace Sys2Proof.Machine

/-- One step. An accepted word is decoded and performed to completion (R20, R60); a word offered and not accepted has no
effect (R67); the consumer takes a byte (R59); `rst` overrides everything, the word offered with it included (R176,
R200). With nothing offered the block is idle (R188). -/
def step (s : State) : Host.Outcome State Fault Refusal :=
  match nextEvent s with
  | none => .next s
  | some (.accept w, t) => exec (decodeWord w) t
  | some (.wait _, t) => .next t
  | some (.take, t) => .next (consumerTake t)
  | some (.rst _, t) => .next (applyReset t)

/-- The instruction that the low `nbits` bits of `w` spell, offered as the next word at the command port. Bits that fit
no command word are offered as nothing. -/
def State.withFetchWord (s : State) (nbits w : Nat) : State :=
  match tableCmdWord nbits w with
  | some cmd => offer (.accept cmd) s
  | none => s

end Sys2Proof.Machine
end

