-- ==== Sys2Proof/Safety.lean ====
section
/-! DEFINITION. Safety.lean: the invariants of 10_state.md R37, in the terms the statements use, and what a state of
the packer still holds back. -/

namespace Sys2Proof.Machine

/-- R37, items 1 to 11, of a state in phase `RUN` between two commands. -/
structure RunInv (s : State) : Prop where
  /-- Item 1. -/
  depth_legal : depthLegal s.depth = true
  /-- Item 2. -/
  nextCode_range : firstFree s.depth ≤ s.nextCode.toNat ∧ s.nextCode.toNat ≤ codeLimit
  /-- Item 3: two pairs never share a code. -/
  dict_injective : ∀ q p q' p' c, dictLookup q p s = some c → dictLookup q' p' s = some c → q = q' ∧ p = p'
  /-- Item 3: the codes of the dictionary are exactly those from `FIRST_FREE` up to `NEXT_CODE - 1`. -/
  dict_values : ∀ c : Code, (∃ q p, dictLookup q p s = some c) ↔
    firstFree s.depth ≤ c.toNat ∧ c.toNat < s.nextCode.toNat
  /-- Item 3: `|DICT| = NEXT_CODE - FIRST_FREE`. -/
  dict_size : s.dict.length + firstFree s.depth = s.nextCode.toNat
  /-- Item 4. -/
  dict_keys : ∀ q p c, dictLookup q p s = some c →
    p.toNat < clearCode s.depth ∧
      (q.toNat < clearCode s.depth ∨ firstFree s.depth ≤ q.toNat ∧ q.toNat < c.toNat)
  /-- Item 5. -/
  width_range : initWidth s.depth ≤ s.width.toNat ∧ s.width.toNat ≤ Config.maxBits
  /-- Item 6. -/
  nextCode_fits : s.nextCode.toNat ≤ 2 ^ s.width.toNat
  /-- Item 7. -/
  width_least : initWidth s.depth < s.width.toNat → 2 ^ (s.width.toNat - 1) < s.nextCode.toNat
  /-- Item 8. -/
  prefix_known : s.havePrefix = true →
    s.prefixCode.toNat < s.nextCode.toNat ∧ s.prefixCode.toNat ≠ clearCode s.depth ∧
      s.prefixCode.toNat ≠ eoiCode s.depth
  /-- Item 9. -/
  acc_bits : s.nacc.toNat ≤ 7 ∧ s.acc.toNat < 2 ^ s.nacc.toNat
  /-- Item 10. -/
  blkcnt_range : s.blkcnt.toNat ≤ 253
  /-- Item 11. -/
  no_error : s.errcode = .none

/-- Every element of `BLK` that waits to be framed has been stored since reset, so that what `BLK` held before is never
read (R38, V4). -/
def PendingWritten (s : State) : Prop := ∀ i < s.blkcnt.toNat, (Memory.read s.blk i).isSome

/-- Between `s` and `t` only what the bit packer writes has changed (R150 to R153: `ACC`, `NACC`, `BLK`, `BLKCNT`,
`OUT`). -/
def OnlyPackerChanged (s t : State) : Prop :=
  t = { s with acc := t.acc, nacc := t.nacc, blk := t.blk, blkcnt := t.blkcnt, out := t.out }

/-- What every state reached from reset satisfies: the canonical forms, R24's and R26's relations between registers,
and in phase `RUN` all of R37. -/
structure StateInv (s : State) : Prop where
  /-- `BLK`'s contents are in canonical form. -/
  blk_wf : Memory.wf s.blk
  /-- `DICT`'s contents are in canonical form. -/
  dict_wf : Dict.wf s.dict
  /-- R21: what the consumer has taken is a part of `OUT`. -/
  taken_le : s.taken ≤ s.out.length
  /-- R24: `ERRCODE` is 0 exactly outside `ERR`. -/
  errcode_iff : s.phase = .err ↔ s.errcode ≠ .none
  /-- R111: in `IDLE` and `DONE`, `HAVE_PREFIX` is 0. -/
  prefix_phase : s.havePrefix = true → s.phase = .run ∨ s.phase = .err
  /-- R38, V4. -/
  pending_written : PendingWritten s
  /-- R37. -/
  running : s.phase = .run → RunInv s

/-- The row of the opcode table that an instruction stands for. -/
def mnemonicOf : Instr → String
  | .start _ => "START"
  | .pix _ => "PIX"
  | .finish => "FINISH"
  | .illegal _ => "ILLEGAL"

/-- The events by which the host sends the given commands, in order (R20, R97). -/
def send (is : List Instr) : List PortEvent := is.map fun i => .accept (encode i)

/-- R97: the commands of `RASTER d, [p0, p1, …]`. -/
def rasterCommands (d : DepthField) (ps : List Pixel) : List Instr := .start d :: ps.map .pix ++ [.finish]

/-- R111, the phase transition table: `PHASE` and `ERRCODE` after the command `i` in the state `s`. -/
def phaseTable (s : State) (i : Instr) : Phase × ErrCode :=
  match s.phase, i with
  | .err, _ => (.err, s.errcode)
  | _, .illegal _ => (.err, .cmd)
  | .run, .start _ => (.err, .seq)
  | .idle, .start d => if 2 ≤ d.toNat ∧ d.toNat ≤ 8 then (.run, s.errcode) else (.err, .depth)
  | .done, .start d => if 2 ≤ d.toNat ∧ d.toNat ≤ 8 then (.run, s.errcode) else (.err, .depth)
  | .run, .pix p => if p.toNat < 2 ^ s.depth.toNat then (.run, s.errcode) else (.err, .range)
  | .run, .finish => if s.havePrefix then (.done, s.errcode) else (.err, .empty)
  | .idle, .pix _ => (.err, .seq)
  | .done, .pix _ => (.err, .seq)
  | .idle, .finish => (.err, .seq)
  | .done, .finish => (.err, .seq)

/-- R113, R131, R134: how many bits `PIX p` packs in phase `RUN`: none in cases A and B, one code in C1, a code and a
`CLEAR` in C2. -/
def pixelBits (p : Pixel) (s : State) : Nat :=
  if s.havePrefix then
    match dictLookup s.prefixCode p s with
    | some _ => 0
    | none =>
      if s.nextCode.toNat < codeLimit then s.width.toNat else s.width.toNat + (widthUpdate s).width.toNat
  else 0

/-- R116: how many bits `FINISH` packs: the pending code at `WIDTH`, then `EOI` at the updated `WIDTH`. -/
def finishBits (s : State) : Nat := s.width.toNat + (widthUpdate s).width.toNat

/-- R150, R151, R55: packing `n` bits in the state `s` stores to the element `i` of `BLK`: a byte is stored for each 8
bits, at `BLKCNT` and the indices after it, going on at 0 after 253. -/
def packStoresTo (s : State) (n i : Nat) : Prop := ∃ j < (s.nacc.toNat + n) / 8, i = (s.blkcnt.toNat + j) % Config.blockMax

end Sys2Proof.Machine
end

