-- ==== Sys2Proof/Safety/GifDecoder.lean ====
section
/-! DEFINITION. Safety/GifDecoder.lean: the reader of the round-trip law (40_dictionary_builder.md R118, 30_encoding.md
R94), the conventional GIF decoding procedure that 95_test_vectors.md section 7 writes out (from general knowledge, not
in source: GK5 to GK7). It is a checker, no part of the block (R7). -/

namespace Sys2Proof.GifDecoder

/-- Undo the sub-block framing; nothing may follow the terminator. The first argument bounds the number of blocks. -/
def unframe : Nat → List (BitVec 8) → Option (List (BitVec 8))
  | 0, _ => none
  | _ + 1, [] => none
  | fuel + 1, n :: rest =>
    if n = 0#8 then (if rest = [] then some [] else none)
    else if rest.length < n.toNat then none
    else (unframe fuel (rest.drop n.toNat)).map (rest.take n.toNat ++ ·)

/-- The bit stream as a number: bit `k` of the number is bit `k mod 8` of byte `k div 8`. -/
def streamValue : List (BitVec 8) → Nat
  | [] => 0
  | b :: bs => b.toNat + 256 * streamValue bs

/-- The string of a code: a literal, or an entry of the table (entry `i` has code `2^d + 2 + i`). -/
def stringOf (d : Nat) (table : List (List Nat)) (c : Nat) : Option (List Nat) :=
  if c < 2 ^ d then some [c] else if 2 ^ d + 2 ≤ c then table[c - (2 ^ d + 2)]? else none

/-- The decoding loop: the stream left (as a number) and how many bits it has, the table (none before the first
clear code), the width, and the string of the previous code (none just after a clear code). The answer is what is still
to come of the output. -/
def loop (d : Nat) : Nat → Nat → Nat → Option (List (List Nat)) → Nat → Option (List Nat) → Option (List Nat)
  | 0, _, _, _, _, _ => none
  | fuel + 1, v, left, table, width, prev =>
    if left < width then none
    else
      let c := v % 2 ^ width
      let v := v / 2 ^ width
      let left := left - width
      if c = 2 ^ d then loop d fuel v left (some []) (d + 1) none
      else if c = 2 ^ d + 1 then (if left < 8 ∧ v = 0 then some [] else none)
      else
        match table, prev with
        | none, _ => none
        | some t, none =>
          match stringOf d t c with
          | none => none
          | some s => (loop d fuel v left (some t) width (some s)).map (s ++ ·)
        | some t, some p =>
          match (stringOf d t c).orElse (fun _ => if c = 2 ^ d + 2 + t.length then some (p ++ p.take 1) else none) with
          | none => none
          | some s =>
            if 2 ^ d + 2 + t.length < 4096 then
              (loop d fuel v left (some (t ++ [p ++ s.take 1]))
                (if 2 ^ d + 2 + t.length + 1 = 2 ^ width ∧ width < 12 then width + 1 else width) (some s)).map (s ++ ·)
            else (loop d fuel v left (some t) width (some s)).map (s ++ ·)

/-- The pixels that the data bytes `bs` stand for at minimum code size `d`. -/
def decodeData (d : Nat) (bs : List (BitVec 8)) : Option (List Nat) :=
  loop d (8 * bs.length + 1) (streamValue bs) (8 * bs.length) none (d + 1) none

/-- The pixels of one raster's image data: the minimum-code-size byte, the sub-blocks, the terminator. -/
def decode : List (BitVec 8) → Option (List Nat)
  | [] => none
  | d :: rest => (unframe (rest.length + 1) rest).bind (decodeData d.toNat)

end Sys2Proof.GifDecoder
end

