-- ==== Sys2Proof/Safety/Reference.lean ====
section
/-! DEFINITION. Safety/Reference.lean: what one raster's bytes are, as a function (40_dictionary_builder.md R117;
42_bit_packer.md R155; 30_encoding.md R88, R92, R93), written over natural numbers and independently of the machine:
the dictionary is the list of its pairs in the order they were entered, and widths come from the closed formula of
R93. -/

namespace Sys2Proof.Reference

/-- R15: `FIRST_FREE` at the depth `d`. -/
abbrev firstFree (d : Nat) : Nat := 2 ^ d + 2

/-- R93: the width of data code number `k` after a `CLEAR` (`k = 1, 2, …`), or of an `EOI` in that position. -/
def codeWidth (d k : Nat) : Nat :=
  if k ≤ 1 then d + 1 else min 12 (max (d + 1) (Nat.size (firstFree d + k - 2)))

/-- The encoder between two pixels: the pairs entered since the last `CLEAR`, oldest first (the `i`-th has code
`FIRST_FREE + i`, R114 item 3); the pending prefix code; and the codes written so far with their widths. -/
structure Encoder where
  pairs : List (Nat × Nat)
  pending : Option Nat
  codes : List (Nat × Nat)
  deriving DecidableEq, Repr

/-- R110, R92: a raster opens with a `CLEAR` of `d + 1` bits. -/
def Encoder.start (d : Nat) : Encoder := ⟨[], none, [(2 ^ d, d + 1)]⟩

/-- R93: the width of the next data code. -/
def Encoder.width (d : Nat) (e : Encoder) : Nat := codeWidth d (e.pairs.length + 1)

/-- R113: the next pixel `p`: case A, case B, case C1, case C2. -/
def Encoder.pixel (d : Nat) (e : Encoder) (p : Nat) : Encoder :=
  match e.pending with
  | none => { e with pending := some p }
  | some q =>
    if (q, p) ∈ e.pairs then { e with pending := some (firstFree d + e.pairs.idxOf (q, p)) }
    else if firstFree d + e.pairs.length < 4096 then
      ⟨e.pairs ++ [(q, p)], some p, e.codes ++ [(q, e.width d)]⟩
    else ⟨[], some p, e.codes ++ [(q, e.width d), (2 ^ d, 12)]⟩

/-- R116: the codes of the whole raster: the pending code, then `EOI` in the position after it. -/
def Encoder.finish (d : Nat) (e : Encoder) : List (Nat × Nat) :=
  match e.pending with
  | none => e.codes
  | some q => e.codes ++ [(q, e.width d), (2 ^ d + 1, codeWidth d (e.pairs.length + 2))]

/-- The encoder after the pixels `ps`. -/
def encoderAfter (d : Nat) (ps : List Nat) : Encoder := ps.foldl (Encoder.pixel d) (Encoder.start d)

/-- R117: `Codes(d, p)`. -/
def codes (d : Nat) (ps : List Nat) : List (Nat × Nat) := (encoderAfter d ps).finish d

/-- R155: `T`, the total number of bits. -/
def bitCount : List (Nat × Nat) → Nat
  | [] => 0
  | (_, w) :: rest => w + bitCount rest

/-- R62, R155: `V`, the sum of each code times two to the widths before it. -/
def bitValue : List (Nat × Nat) → Nat
  | [] => 0
  | (c, w) :: rest => c + 2 ^ w * bitValue rest

/-- R155: the `n` low bytes of `v`, least significant first. -/
def lowBytes (n v : Nat) : List (BitVec 8) := (List.range n).map fun i => BitVec.ofNat 8 (v / 256 ^ i)

/-- R155: `Bytes`, `ceil(T / 8)` bytes. -/
def bytes (cs : List (Nat × Nat)) : List (BitVec 8) := lowBytes ((bitCount cs + 7) / 8) (bitValue cs)

/-- R155: the full sub-blocks at the head of a run of bytes: `254` and a group of 254, for each full group. -/
def fullBlocks (bs : List (BitVec 8)) : List (BitVec 8) :=
  (List.range (bs.length / 254)).flatMap fun g => 254#8 :: (bs.drop (254 * g)).take 254

/-- R155: the bytes after the last full group. -/
def lastGroup (bs : List (BitVec 8)) : List (BitVec 8) := bs.drop (254 * (bs.length / 254))

/-- R155: `Frame`: the full sub-blocks, the rest as a sub-block if there is a rest, the terminator. -/
def frame (bs : List (BitVec 8)) : List (BitVec 8) :=
  fullBlocks bs ++ (if lastGroup bs = [] then [] else BitVec.ofNat 8 (lastGroup bs).length :: lastGroup bs) ++ [0#8]

/-- R117: `Compress(d, p)`, with the minimum-code-size byte if the block writes it. -/
def compress (emitMcs : Bool) (d : Nat) (ps : List Nat) : List (BitVec 8) :=
  (if emitMcs then [BitVec.ofNat 8 d] else []) ++ frame (bytes (codes d ps))

end Sys2Proof.Reference
end

