-- ==== Sys2Proof/Certificates/Slice0/Obligations.lean ====
section
/-! DEFINITION. Certificates/Slice0/Obligations.lean: the statements for the provers. -/

open Sys2Proof Sys2Proof.Machine

/-! ## Encodings (30_encoding.md) -/

/-- R81 to R83, R85: no bit of an encoding is dropped: a well-formed instruction is read back from its word, and from
the two bytes that carry the word (the carriage in bytes is the model's choice, log entry 9). -/
def Obligations.DecodeInvertsEncodeOnWellFormed : Prop :=
  ∀ i : Instr, i.wf = true → decodeWord (encode i) = i ∧ decodeBytes (bytesOfNat (encode i).toNat) = .ok i

/-- R85: each of the 1024 words has one reading, which is well formed and encodes to that word. -/
def Obligations.EncodeInvertsDecode : Prop :=
  ∀ w : CmdWord, (decodeWord w).wf = true ∧ encode (decodeWord w) = w

/-- R85, with `op = w div 256` and `arg = w mod 256`: the six cases of `Decode`, and how many words each reading has. -/
def Obligations.DecodeFollowsItsSixCases : Prop :=
  (∀ w : CmdWord,
    (w.toNat / 256 = 0 → w.toNat % 256 / 16 = 0 → decodeWord w = .start (BitVec.ofNat 4 (w.toNat % 256))) ∧
    (w.toNat / 256 = 0 → w.toNat % 256 / 16 ≠ 0 → decodeWord w = .illegal w) ∧
    (w.toNat / 256 = 1 → decodeWord w = .pix (BitVec.ofNat 8 (w.toNat % 256))) ∧
    (w.toNat / 256 = 2 → w.toNat % 256 = 0 → decodeWord w = .finish) ∧
    (w.toNat / 256 = 2 → w.toNat % 256 ≠ 0 → decodeWord w = .illegal w) ∧
    (w.toNat / 256 = 3 → decodeWord w = .illegal w)) ∧
  (let count := fun (f : Instr → Bool) => (List.range 1024).countP fun n => f (decodeWord (BitVec.ofNat 10 n))
   count (fun | .start _ => true | _ => false) = 16 ∧
   count (fun | .start d => depthLegal d | _ => false) = 7 ∧
   count (fun | .pix _ => true | _ => false) = 256 ∧
   count (fun | .finish => true | _ => false) = 1 ∧
   count (fun | .illegal _ => true | _ => false) = 751)

/-- R81 to R83, R98: the mask and match values of the opcode table say the same as the decoder: no word belongs to two
rows, and a word is read as the row it belongs to, or as `ILLEGAL` when it belongs to none. -/
def Obligations.DecodeAgreesWithOpcodeTable : Prop :=
  ∀ w : CmdWord, (commandRows.filter fun r => r.has w).length ≤ 1 ∧
    mnemonicOf (decodeWord w) = ((commandRows.find? fun r => r.has w).map (·.mnemonic)).getD "ILLEGAL"

/-- R81 to R83, R86: words written out from the encodings (a sanity statement). -/
def Obligations.WrittenOutWordsDecode : Prop :=
  decodeWord 0b0000001000#10 = .start 8 ∧ decodeWord 0b0111111111#10 = .pix 255 ∧
  decodeWord 0b0100000101#10 = .pix 5 ∧ decodeWord 0b1000000000#10 = .finish ∧
  decodeWord 0b0000010000#10 = .illegal 0x010 ∧ decodeWord 0b1000000001#10 = .illegal 0x201 ∧
  decodeWord 0b1100000000#10 = .illegal 0x300

/-! ## The ports (10_state.md R20, R21, R35; 20_memory.md R59 to R67) -/

/-- R20, R60, R67: an accepted word is decoded and performed; the only other effect is that the event is past. -/
def Obligations.StepPerformsAcceptedWord : Prop :=
  (∀ (s : State) (w : CmdWord) (rest : List PortEvent), s.input = .accept w :: rest →
      step s = exec (decodeWord w) { s with input := rest }) ∧
  (∀ (s : State) (i : Instr) (rest : List PortEvent), i.wf = true → s.input = .accept (encode i) :: rest →
      step s = exec i { s with input := rest }) ∧
  (∀ (s : State) (i : Instr), i.wf = true → step (s.withFetchWord 16 (encode i).toNat) = exec i s)

/-- R67, R188: a word offered and not accepted has no effect, and with nothing offered the block is idle. -/
def Obligations.UnacceptedWordAndIdleHaveNoEffect : Prop :=
  (∀ (s : State) (w : CmdWord) (rest : List PortEvent), s.input = .wait w :: rest → step s =
      .next { s with input := rest }) ∧
  (∀ s : State, s.input = [] → step s = .next s)

/-- R20, R21, R59: the consumer takes the next byte of `OUT`, in order, and changes nothing but its own progress. -/
def Obligations.ConsumerTakesBytesInOrder : Prop :=
  ∀ (s : State) (rest : List PortEvent), s.input = .take :: rest →
    (∀ b, outData s = some b →
      step s = .next { s with input := rest, taken := s.taken + 1 } ∧
        s.out.take (s.taken + 1) = s.out.take s.taken ++ [b]) ∧
    (outData s = none → step s = .next { s with input := rest })

/-- R38, R200, R201: reset from every state, `ERR` and the middle of a raster included, whatever word is offered in that
cycle; every element of `BLK` holds a free value (V4), about which nothing is said. (That value's form, the world's
events and the build kept: the model's choices, log entries 1 to 3.) -/
def Obligations.ResetFromEveryState : Prop :=
  ∀ (s : State) (offered : Option CmdWord) (rest : List PortEvent), s.input = .rst offered :: rest → ∃ t,
    step s = .next t ∧
    t = { phase := .idle, errcode := .none, depth := 0, havePrefix := false, prefixCode := 0, width := 0,
          nextCode := 0, acc := 0, nacc := 0, blk := [], resets := s.resets + 1, blkcnt := 0, dict := [], out := [],
          taken := 0, input := rest, emitMcs := s.emitMcs } ∧
    status t = 0x00#8 ∧ outValid t = false ∧ (∀ q p, dictLookup q p t = none) ∧
    ∀ i, blkRead t i = Config.blkUnspecified (s.resets + 1) i

/-- R35: the fields of `STATUS`; `OUT_PENDING` is 1 when at least one byte of `OUT` has not been taken. -/
def Obligations.StatusShowsItsFields : Prop :=
  ∀ s : State,
    (status s).extractLsb' 0 2 = (match s.phase with | .idle => 0 | .run => 1 | .done => 2 | .err => 3) ∧
    (status s).extractLsb' 2 3 =
      (match s.errcode with | .none => 0 | .cmd => 1 | .seq => 2 | .depth => 3 | .range => 4 | .empty => 5) ∧
    (status s).getLsbD 5 = s.havePrefix ∧
    ((status s).getLsbD 6 = true ↔ s.taken < s.out.length) ∧
    (status s).getLsbD 7 = false

/-! ## Faults (60_exceptions.md) -/

/-- R172: an illegal word raises `ERR_CMD` in `IDLE`, `RUN` and `DONE` and does nothing else, and which words are
illegal. -/
def Obligations.IllegalWordRaisesErrCmd : Prop :=
  (∀ (s : State) (w : CmdWord), s.phase ≠ .err → exec (.illegal w) s =
      .next { s with phase := .err, errcode := .cmd }) ∧
  (∀ (s : State) (w : CmdWord) (rest : List PortEvent), s.phase ≠ .err → s.input = .accept w :: rest →
    (w.toNat / 256 = 3 ∨ (w.toNat / 256 = 0 ∧ w.toNat % 256 / 16 ≠ 0) ∨ (w.toNat / 256 = 2 ∧ w.toNat % 256 ≠ 0)) →
    step s = .next { s with phase := .err, errcode := .cmd, input := rest })

/-- R175: a command in a phase where it is not allowed raises `ERR_SEQ`, whatever its operand. -/
def Obligations.CommandOutOfSequenceRaisesErrSeq : Prop :=
  ∀ s : State,
    (s.phase = .run → ∀ d, exec (.start d) s = .next { s with phase := .err, errcode := .seq }) ∧
    (s.phase = .idle ∨ s.phase = .done →
      (∀ p, exec (.pix p) s = .next { s with phase := .err, errcode := .seq }) ∧
      exec .finish s = .next { s with phase := .err, errcode := .seq })

/-- R173: `START d` with `d` outside 2 to 8 raises `ERR_DEPTH`; the operand is not clamped. -/
def Obligations.DepthOutsideRangeRaisesErrDepth : Prop :=
  ∀ (s : State) (d : DepthField), s.phase = .idle ∨ s.phase = .done → d.toNat < 2 ∨ 8 < d.toNat →
    exec (.start d) s = .next { s with phase := .err, errcode := .depth }

/-- R174: a pixel value not below `2^DEPTH` raises `ERR_RANGE`; at `DEPTH = 8` no pixel value does. -/
def Obligations.PixelOutsidePaletteRaisesErrRange : Prop :=
  (∀ (s : State) (p : Pixel), s.phase = .run → 2 ^ s.depth.toNat ≤ p.toNat →
    exec (.pix p) s = .next { s with phase := .err, errcode := .range }) ∧
  (∀ (s : State) (p : Pixel) (t : State), s.phase = .run → s.depth = 8 → exec (.pix p) s = .next t → t.phase = .run)

/-- R177: `FINISH` with no pixel since `START` raises `ERR_EMPTY`; no output is invented. -/
def Obligations.EmptyRasterRaisesErrEmpty : Prop :=
  ∀ s : State, s.phase = .run → s.havePrefix = false → exec .finish s =
      .next { s with phase := .err, errcode := .empty }

/-- R171: a command that ends in `ERR` has no effect but the two writes of `raise`. -/
def Obligations.FaultingCommandHasNoOtherEffect : Prop :=
  ∀ (i : Instr) (s t : State), exec i s = .next t → s.phase ≠ .err → t.phase = .err →
    ∃ e, e ≠ ErrCode.none ∧ t = { s with phase := .err, errcode := e }

/-- R178: in `ERR` every accepted word, legal or illegal, is discarded, and the port keeps accepting. -/
def Obligations.ErrPhaseDiscardsEveryWord : Prop :=
  ∀ (s : State) (w : CmdWord) (rest : List PortEvent), s.phase = .err → s.input = .accept w :: rest →
    step s = .next { s with input := rest } ∧ cmdReady s = true

/-- R180: the only exit from `ERR` is reset, which also empties `OUT`; `ERRCODE` keeps the first fault's code. -/
def Obligations.OnlyResetLeavesErr : Prop :=
  ∀ s t : State, s.phase = .err → step s = .next t →
    (t.phase = .err ∧ t.errcode = s.errcode ∧ t.out = s.out) ∨
    ((∃ offered rest, s.input = .rst offered :: rest) ∧ t.phase = .idle ∧ t.errcode = .none ∧ t.out = [])

/-- R111: `PHASE` changes only as the transition table says. -/
def Obligations.PhaseFollowsTransitionTable : Prop :=
  ∀ s t : State, step s = .next t →
    (t.phase, t.errcode) =
      match s.input with
      | .accept w :: _ => phaseTable s (decodeWord w)
      | .rst _ :: _ => (.idle, .none)
      | _ => (s.phase, s.errcode)

/-! ## START -/

/-- R110: `START d` from its checks to its last write. The clear code `2^d` has `d + 1` bits: at `d = 7` and `d = 8` its
low 8 bits complete a byte, which goes to `BLK[0]` (R150; R110's text names `d = 8` only, so the clause at `d = 7` is
the model's deduction, log entry 15). Every field not named keeps its value. -/
def Obligations.StartOpensRaster : Prop :=
  ∀ (s : State) (d : DepthField),
    (s.phase = .err → exec (.start d) s = .next s) ∧
    (s.phase = .run → exec (.start d) s = .next { s with phase := .err, errcode := .seq }) ∧
    (s.phase = .idle ∨ s.phase = .done →
      (d.toNat < 2 ∨ 8 < d.toNat → exec (.start d) s = .next { s with phase := .err, errcode := .depth }) ∧
      (2 ≤ d.toNat → d.toNat ≤ 8 → exec (.start d) s = .next { s with
        phase := .run
        depth := d
        havePrefix := false
        prefixCode := 0
        width := BitVec.ofNat 4 (d.toNat + 1)
        nextCode := BitVec.ofNat 13 (2 ^ d.toNat + 2)
        dict := []
        acc := if 7 ≤ d.toNat then BitVec.ofNat 19 (2 ^ d.toNat / 256) else BitVec.ofNat 19 (2 ^ d.toNat)
        nacc := if 7 ≤ d.toNat then BitVec.ofNat 5 (d.toNat + 1 - 8) else BitVec.ofNat 5 (d.toNat + 1)
        blk := if 7 ≤ d.toNat then Memory.write s.blk 0 (BitVec.ofNat 8 (2 ^ d.toNat)) else s.blk
        blkcnt := if 7 ≤ d.toNat then 1 else 0
        out := s.out ++ (if s.emitMcs then [BitVec.ofNat 8 d.toNat] else []) }))

/-! ## PIX -/

/-- R113 case A: the first pixel of a raster waits in `PREFIX`; no code, no byte, nothing else changes. -/
def Obligations.FirstPixelWaitsInPrefix : Prop :=
  ∀ (s : State) (p : Pixel), s.phase = .run → p.toNat < 2 ^ s.depth.toNat → s.havePrefix = false →
    exec (.pix p) s = .next { s with prefixCode := BitVec.ofNat 12 p.toNat, havePrefix := true }

/-- R113 case B: a known pair moves `PREFIX` to its code; nothing else changes. -/
def Obligations.KnownPairExtendsMatch : Prop :=
  ∀ (s : State) (p : Pixel) (c : Code), s.phase = .run → p.toNat < 2 ^ s.depth.toNat → s.havePrefix = true →
    dictLookup s.prefixCode p s = some c → exec (.pix p) s = .next { s with prefixCode := c }

/-- R113 case C1, R114, R131, R132: at a novel pair with a code left, the prefix code is packed at the old width, the
width update sees `NEXT_CODE` before the insertion, exactly the pair `(PREFIX, p)` gets the code `NEXT_CODE`, and the
pixel becomes the prefix. -/
def Obligations.NovelPairEmitsThenInserts : Prop :=
  ∀ (s : State) (p : Pixel), RunInv s → s.phase = .run → p.toNat < 2 ^ s.depth.toNat → s.havePrefix = true →
    dictLookup s.prefixCode p s = none → s.nextCode.toNat < 4096 →
    ∃ u t,
      packBits s.prefixCode.toNat s.width.toNat s = .next u ∧ OnlyPackerChanged s u ∧ exec (.pix p) s = .next t ∧
      t = { u with
        width := if s.width.toNat < 12 ∧ 2 ^ s.width.toNat ≤ s.nextCode.toNat then s.width + 1 else s.width
        nextCode := BitVec.ofNat 13 (s.nextCode.toNat + 1)
        prefixCode := BitVec.ofNat 12 p.toNat
        dict := t.dict } ∧
      t.dict.length = s.dict.length + 1 ∧
      ∀ (q' : Code) (p' : Pixel), dictLookup q' p' t =
        if q' = s.prefixCode ∧ p' = p then some (BitVec.ofNat 12 s.nextCode.toNat) else dictLookup q' p' s

/-- R113 case C2, R114 items 6 and 7, R134, R135: at a novel pair with no code left, the prefix code and then `CLEAR`
are packed in 12 bits each, the pair is not entered, and the code writer is as just after a first clear code. -/
def Obligations.NovelPairAtFullTableClears : Prop :=
  ∀ (s : State) (p : Pixel), RunInv s → s.phase = .run → p.toNat < 2 ^ s.depth.toNat → s.havePrefix = true →
    dictLookup s.prefixCode p s = none → s.nextCode.toNat = 4096 →
    ∃ u v,
      packBits s.prefixCode.toNat 12 s = .next u ∧ packBits (2 ^ s.depth.toNat) 12 u = .next v ∧
      OnlyPackerChanged s v ∧
      exec (.pix p) s = .next { v with
        dict := []
        nextCode := BitVec.ofNat 13 (2 ^ s.depth.toNat + 2)
        width := BitVec.ofNat 4 (s.depth.toNat + 1)
        prefixCode := BitVec.ofNat 12 p.toNat }

/-- What an accepted pixel leaves unchanged (R113 "State written"; R150, R151 for the elements of `BLK` it stores to),
in every state. -/
def Obligations.PixelFrame : Prop :=
  ∀ (s : State) (p : Pixel) (t : State), s.phase = .run → p.toNat < 2 ^ s.depth.toNat → exec (.pix p) s = .next t →
    t = { s with
      havePrefix := true, prefixCode := t.prefixCode, width := t.width, nextCode := t.nextCode, acc := t.acc,
      nacc := t.nacc, blk := t.blk, blkcnt := t.blkcnt, dict := t.dict, out := t.out } ∧
    (s.havePrefix = false ∨ dictLookup s.prefixCode p s ≠ none →
      t = { s with havePrefix := true, prefixCode := t.prefixCode }) ∧
    (∃ bs, t.out = s.out ++ bs) ∧
    (∀ i, ¬ packStoresTo s (pixelBits p s) i → blkRead t i = blkRead s i) ∧
    (s.nextCode.toNat < 4096 → ∀ q' p', ¬ (q' = s.prefixCode ∧ p' = p) → dictLookup q' p' t = dictLookup q' p' s)

/-! ## FINISH -/

/-- R116: `FINISH` from its checks to its last write: the pending code at `WIDTH`, `EOI` at the updated width, the last
byte padded with zero bits, the partial sub-block, the terminator. Every field not named keeps its value, and so does
every element of `BLK` but the ones the new bytes are stored to. -/
def Obligations.FinishCompletesRaster : Prop :=
  (∀ s : State, s.phase = .err → exec .finish s = .next s) ∧
  (∀ s : State, s.phase = .idle ∨ s.phase = .done → exec .finish s =
      .next { s with phase := .err, errcode := .seq }) ∧
  (∀ s : State, s.phase = .run → s.havePrefix = false → exec .finish s =
      .next { s with phase := .err, errcode := .empty }) ∧
  (∀ s : State, RunInv s → s.phase = .run → s.havePrefix = true →
    let w := s.width.toNat
    let w' := if w < 12 ∧ 2 ^ w ≤ s.nextCode.toNat then w + 1 else w
    let total := s.nacc.toNat + w + w'
    let value := s.acc.toNat + s.prefixCode.toNat * 2 ^ s.nacc.toNat + (2 ^ s.depth.toNat + 1) * 2 ^ (s.nacc.toNat + w)
    ∃ t, exec .finish s = .next t ∧
      t = { s with
        phase := .done
        havePrefix := false
        width := BitVec.ofNat 4 w'
        acc := 0
        nacc := 0
        blk := t.blk
        blkcnt := 0
        out := s.out ++ Reference.frame (pendingBytes s ++ Reference.lowBytes ((total + 7) / 8) value) } ∧
      ∀ i, (∀ j < (total + 7) / 8, i ≠ (s.blkcnt.toNat + j) % 254) → blkRead t i = blkRead s i)

/-! ## The code writer and the bit packer (41_code_writer.md, 42_bit_packer.md) -/

/-- R150, R62: under its preconditions `PackBits` completes: the code's bits follow the waiting bits, least significant
first; each 8 bits complete a byte, in order; fewer than 8 bits stay, with zeros above them. -/
def Obligations.PackBitsAppendsCodeBits : Prop :=
  ∀ (c w : Nat) (s : State), 3 ≤ w → w ≤ 12 → c < 2 ^ w → s.nacc.toNat ≤ 7 → s.acc.toNat < 2 ^ s.nacc.toNat →
    s.blkcnt.toNat ≤ 253 →
    let total := s.nacc.toNat + w
    let value := s.acc.toNat + c * 2 ^ s.nacc.toNat
    let stored := pendingBytes s ++ Reference.lowBytes (total / 8) value
    ∃ t, packBits c w s = .next t ∧ OnlyPackerChanged s t ∧
      t.nacc.toNat = total % 8 ∧ t.acc.toNat = value / 256 ^ (total / 8) ∧ t.acc.toNat < 2 ^ t.nacc.toNat ∧
      t.out = s.out ++ Reference.fullBlocks stored ∧ pendingBytes t = Reference.lastGroup stored ∧
      t.blkcnt.toNat = (s.blkcnt.toNat + total / 8) % 254 ∧ (PendingWritten s → PendingWritten t)

/-- R151, R152: a byte joins the waiting ones; the 254th is framed with them at once, and the buffer is empty again. -/
def Obligations.PutByteFramesFullBlock : Prop :=
  ∀ (b : Byte) (s : State), s.blkcnt.toNat ≤ 253 →
    ∃ t, putByte b s = .next t ∧ t = { s with blk := t.blk, blkcnt := t.blkcnt, out := t.out } ∧
      t.blkcnt.toNat ≤ 253 ∧ (PendingWritten s → PendingWritten t) ∧
      (s.blkcnt.toNat < 253 → t.out = s.out ∧ pendingBytes t = pendingBytes s ++ [b]) ∧
      (s.blkcnt.toNat = 253 → t.out = s.out ++ 254#8 :: (pendingBytes s ++ [b]) ∧ t.blkcnt = 0)

/-- R152: `FlushBlock` writes the length byte and the waiting bytes, oldest first, and empties the buffer; it never
writes an empty sub-block. (`BLKCNT` is at most 254, R31.) -/
def Obligations.FlushBlockWritesLengthThenBytes : Prop :=
  (∀ s : State, s.blkcnt = 0 → flushBlock s = .next s) ∧
  (∀ s : State, s.blkcnt ≠ 0 → s.blkcnt.toNat ≤ 254 →
    flushBlock s = .next { s with out := s.out ++ s.blkcnt :: pendingBytes s, blkcnt := 0 })

/-- R93, R132: in phase `RUN` the width in force is the one the closed formula gives for the next data code, number
`NEXT_CODE - FIRST_FREE + 1` after the last `CLEAR`. -/
def Obligations.WidthFollowsClosedFormula : Prop :=
  ∀ s : State, RunInv s →
    s.width.toNat = Reference.codeWidth s.depth.toNat (s.nextCode.toNat - firstFree s.depth + 1)

/-! ## Storage (20_memory.md) -/

/-- R51 to R54: the dictionary is an exact map: an insertion is found under its own pair and changes no other, after a
clear nothing is found, and neither touches any other register. -/
def Obligations.DictionaryIsExactMap : Prop :=
  (∀ (q : Code) (p : Pixel) (c : Code) (s : State) (q' : Code) (p' : Pixel), dictLookup q' p' (dictInsert q p c s) =
    if q' = q ∧ p' = p then some c else dictLookup q' p' s) ∧
  (∀ (s : State) (q : Code) (p : Pixel), dictLookup q p (dictClear s) = none) ∧
  (∀ (q : Code) (p : Pixel) (c : Code) (s : State), dictInsert q p c s = { s with dict := (dictInsert q p c s).dict }) ∧
  (∀ s : State, dictClear s = { s with dict := (dictClear s).dict }) ∧
  (∀ (q : Code) (p : Pixel) (c : Code) (s : State), Dict.wf s.dict → Dict.wf (dictInsert q p c s).dict)

/-- R55, R56: a store to `BLK` goes to the element `BLKCNT`, is read back there, leaves every other element and keeps
the canonical form; beyond element 253 there is nothing to store to. -/
def Obligations.BlkStoreWritesOneElement : Prop :=
  (∀ (b : Byte) (s : State), s.blkcnt.toNat ≤ 253 → ∃ t, blkStore b s = .next t ∧
    t = { s with blk := t.blk, blkcnt := s.blkcnt + 1 } ∧
    (∀ i, blkRead t i = if i = s.blkcnt.toNat then b else blkRead s i) ∧
    (Memory.wf s.blk → Memory.wf t.blk)) ∧
  (∀ (b : Byte) (s : State), 253 < s.blkcnt.toNat → blkStore b s = .fault .blkOverrun)

/-! ## Invariants and whole-machine rules -/

/-- R38: the state after reset satisfies the invariants. -/
def Obligations.ResetSatisfiesInvariants : Prop := StateInv State.reset

/-- R37, from every state that satisfies the invariants, not only the reached ones: every step keeps them. -/
def Obligations.EveryStepKeepsInvariants : Prop := ∀ s t : State, StateInv s → step s = .next t → StateInv t

/-- R37: in every state with `PHASE = RUN` reached from reset, whatever comes in at the ports and however the block was
built, items 1 to 11 hold. -/
def Obligations.RunStatesReachedFromResetSatisfyR37 : Prop :=
  ∀ (n : Nat) (input : List PortEvent) (emitMcs : Bool) (t : State),
     Sys2Proof.core.run n { State.reset with input := input, emitMcs := emitMcs } = .next t →
    t.phase = .run → RunInv t

/-- R38, V4 (`any value`): no command reads what `BLK` held after reset: with the free values of any other reset in its
place the command does the same, and afterwards too every waiting element has been stored. (That the free values are
numbered by resets is the model's choice, log entry 1.) -/
def Obligations.UnspecifiedBlkIsNeverRead : Prop :=
  ∀ (i : Instr) (s t : State), PendingWritten s → exec i s = .next t →
    PendingWritten t ∧ ∀ n, exec i { s with resets := n } = .next { t with resets := n }

/-- R133, R150, R151: no register overflows and no missing element is reached: from a state that satisfies the
invariants every step answers a next state. -/
def Obligations.InvariantStatesNeverStop : Prop := ∀ s : State, StateInv s → ∃ t, step s = .next t

/-- R57, R34: `OUT` is written at its end only, and no command reads it: with any other history in front, the command
does the same and appends the same bytes. -/
def Obligations.OutIsAppendOnlyAndNeverRead : Prop :=
  ∀ (i : Instr) (s t : State), exec i s = .next t → ∃ bs, t.out = s.out ++ bs ∧
    ∀ other, exec i { s with out := other } = .next { t with out := other ++ bs }

/-- R59, R67, R200: no command changes what the host will send, what the consumer has taken, the build, or how many
resets have gone by. -/
def Obligations.CommandsLeaveTheWorldAlone : Prop :=
  ∀ (i : Instr) (s t : State), exec i s = .next t → t.input = s.input ∧ t.taken = s.taken ∧ t.emitMcs = s.emitMcs ∧
    t.resets = s.resets

/-- R25: `DEPTH` is written only by a successful `START` and by reset; a `START` writes a legal value. -/
def Obligations.DepthWrittenOnlyByStartAndReset : Prop :=
  ∀ s t : State, step s = .next t → t.depth ≠ s.depth →
    (∃ offered rest, s.input = .rst offered :: rest ∧ t.depth = 0) ∨
    (∃ w rest, s.input = .accept w :: rest ∧ decodeWord w = .start t.depth ∧
      (s.phase = .idle ∨ s.phase = .done) ∧ t.phase = .run ∧ 2 ≤ t.depth.toNat ∧ t.depth.toNat ≤ 8)

/-- R29, R114 item 3, R133: in phase `RUN` a command keeps `NEXT_CODE`, raises it by one, or (from 4096, at the table
reset) sets it to `FIRST_FREE`; it never exceeds 4096 and never wraps. -/
def Obligations.NextCodeRisesByOneOrRestarts : Prop :=
  ∀ (i : Instr) (s t : State), RunInv s → s.phase = .run → exec i s = .next t →
    t.nextCode = s.nextCode ∨
    (t.nextCode.toNat = s.nextCode.toNat + 1 ∧ t.nextCode.toNat ≤ 4096) ∨
    (s.nextCode.toNat = 4096 ∧ t.nextCode.toNat = 2 ^ s.depth.toNat + 2 ∧ t.dict = [])

/-- R119: the bounds on the work of one command. -/
def Obligations.WorkPerCommandIsBounded : Prop :=
  (∀ (s : State) (d : DepthField) (t : State), s.phase = .idle ∨ s.phase = .done → exec (.start d) s = .next t →
      t.out.length ≤ s.out.length + 1) ∧
  (∀ (s : State) (p : Pixel) (t : State), RunInv s → s.phase = .run → exec (.pix p) s = .next t →
    pixelBits p s ≤ 24 ∧ (s.nacc.toNat + pixelBits p s) / 8 ≤ 3 ∧ t.out.length ≤ s.out.length + 255) ∧
  (∀ s t : State, RunInv s → s.phase = .run → exec .finish s = .next t → t.phase = .done →
    finishBits s ≤ 24 ∧ (s.nacc.toNat + finishBits s + 7) / 8 ≤ 4 ∧
      ∃ data, data.length ≤ 253 + 4 ∧ t.out = s.out ++ Reference.frame data)

/-! ## Whole rasters (40_dictionary_builder.md R117 to R120, 30_encoding.md R90 to R95) -/

/-- R155 (last item), R114, R65: after `START d` and any pixels below `2^d`, the machine is where the reference encoder
is: the registers, the dictionary, the bits and bytes that wait, and the sub-blocks already written out. -/
def Obligations.RasterInProgressMatchesReference : Prop :=
  ∀ (s : State) (d : DepthField) (ps : List Pixel) (rest : List PortEvent), s.phase = .idle ∨ s.phase = .done →
      s.errcode = .none → 2 ≤ d.toNat → d.toNat ≤ 8 →
    (∀ p ∈ ps, p.toNat < 2 ^ d.toNat) → s.input = send (.start d :: ps.map .pix) ++ rest →
    let e := Reference.encoderAfter d.toNat (ps.map (·.toNat))
    let total := Reference.bitCount e.codes
    let value := Reference.bitValue e.codes
    let whole := Reference.lowBytes (total / 8) value
    ∃ t, Sys2Proof.core.run (ps.length + 1) s = .next t ∧
      t.phase = .run ∧ t.errcode = .none ∧ t.depth = d ∧ t.input = rest ∧
      t.havePrefix = e.pending.isSome ∧ (∀ q, e.pending = some q → t.prefixCode.toNat = q) ∧
      t.nextCode.toNat = Reference.firstFree d.toNat + e.pairs.length ∧ t.width.toNat = e.width d.toNat ∧
      (∀ q p, dictLookup q p t =
        if (q.toNat, p.toNat) ∈ e.pairs then
          some (BitVec.ofNat 12 (Reference.firstFree d.toNat + e.pairs.idxOf (q.toNat, p.toNat)))
        else none) ∧
      t.nacc.toNat = total % 8 ∧ t.acc.toNat = value / 256 ^ (total / 8) ∧ t.blkcnt.toNat = total / 8 % 254 ∧
      t.out = s.out ++ (if s.emitMcs then [BitVec.ofNat 8 d.toNat] else []) ++ Reference.fullBlocks whole ∧
      pendingBytes t = Reference.lastGroup whole

/-- R117: a whole raster, started in `IDLE` or `DONE`, ends in `DONE` with `ERRCODE = 0` and has appended exactly
`Compress(d, p)`, whatever came before. -/
def Obligations.RasterAppendsExactlyCompress : Prop :=
  ∀ (s : State) (d : DepthField) (ps : List Pixel) (rest : List PortEvent), s.phase = .idle ∨ s.phase = .done →
      s.errcode = .none → 2 ≤ d.toNat → d.toNat ≤ 8 →
    ps ≠ [] → (∀ p ∈ ps, p.toNat < 2 ^ d.toNat) → s.input = send (rasterCommands d ps) ++ rest →
    ∃ t, Sys2Proof.core.run (ps.length + 2) s = .next t ∧
      t.phase = .done ∧ t.errcode = .none ∧ t.input = rest ∧
      t.out = s.out ++ Reference.compress s.emitMcs d.toNat (ps.map (·.toNat))

/-- R120: two rasters back to back, no reset in between: the second's bytes follow the first's with nothing in between,
and each is `Compress` of its own pixels. -/
def Obligations.BackToBackRastersAreIndependent : Prop :=
  ∀ (s : State) (d : DepthField) (ps : List Pixel) (d' : DepthField) (ps' : List Pixel) (rest : List PortEvent),
     s.phase = .idle ∨ s.phase = .done → s.errcode = .none →
    2 ≤ d.toNat → d.toNat ≤ 8 → ps ≠ [] → (∀ p ∈ ps, p.toNat < 2 ^ d.toNat) →
    2 ≤ d'.toNat → d'.toNat ≤ 8 → ps' ≠ [] → (∀ p ∈ ps', p.toNat < 2 ^ d'.toNat) →
    s.input = send (rasterCommands d ps ++ rasterCommands d' ps') ++ rest →
    ∃ t, Sys2Proof.core.run (ps.length + 2 + (ps'.length + 2)) s = .next t ∧ t.phase = .done ∧ t.input = rest ∧
      t.out = s.out ++ Reference.compress s.emitMcs d.toNat (ps.map (·.toNat)) ++
        Reference.compress s.emitMcs d'.toNat (ps'.map (·.toNat))

/-- R118: the round-trip law against the decoder of 95_test_vectors.md section 7. -/
def Obligations.DecoderReturnsTheRaster : Prop :=
  ∀ (d : Nat) (ps : List Nat), 2 ≤ d → d ≤ 8 → ps ≠ [] → (∀ p ∈ ps, p < 2 ^ d) →
    GifDecoder.decode (Reference.compress true d ps) = some ps ∧
    (GifDecoder.unframe ((Reference.compress false d ps).length + 1) (Reference.compress false d ps)).bind
      (GifDecoder.decodeData d) = some ps

/-- R92, R93, R135: the code stream of a raster is `CLEAR data+ (CLEAR data+)* EOI`; every section but the last has
`4096 - FIRST_FREE + 1` data codes and the last no more; each begins with a literal; widths are the closed formula's, a
later `CLEAR` has 12 bits; and every code fits its width. -/
def Obligations.CodeStreamHasItsGrammar : Prop :=
  ∀ (d : Nat) (ps : List Nat), 2 ≤ d → d ≤ 8 → ps ≠ [] → (∀ p ∈ ps, p < 2 ^ d) →
    ∃ (sections : List (List Nat)) (last : List Nat),
      (∀ sec ∈ sections, sec.length = 4096 - Reference.firstFree d + 1) ∧
      last.length ≤ 4096 - Reference.firstFree d + 1 ∧
      (∀ sec ∈ sections ++ [last], sec ≠ [] ∧ (∀ c ∈ sec.head?, c < 2 ^ d) ∧
        ∀ c ∈ sec, c < 2 ^ d ∨ (Reference.firstFree d ≤ c ∧ c < 4096)) ∧
      (let numbered := fun (sec : List Nat) => sec.zipIdx.map fun x => (x.1, Reference.codeWidth d (x.2 + 1))
       Reference.codes d ps =
        (2 ^ d, d + 1) :: (sections.flatMap fun sec => numbered sec ++ [(2 ^ d, 12)]) ++ numbered last ++
          [(2 ^ d + 1, Reference.codeWidth d (last.length + 1))]) ∧
      ∀ x ∈ Reference.codes d ps, x.1 < 2 ^ x.2

/-- R90, R91, R156: the bytes of a raster are the minimum-code-size byte if the block writes it, at least one sub-block
(every one but the last of 254 data bytes, the last of 1 to 254), and the terminator; the data bytes together are the
packed bit stream, at least two bytes. -/
def Obligations.CompressedRasterHasItsLayout : Prop :=
  ∀ (emitMcs : Bool) (d : Nat) (ps : List Nat), 2 ≤ d → d ≤ 8 → ps ≠ [] → (∀ p ∈ ps, p < 2 ^ d) →
    ∃ (full : List (List Byte)) (last : List Byte),
      (∀ b ∈ full, b.length = 254) ∧ 1 ≤ last.length ∧ last.length ≤ 254 ∧
      Reference.compress emitMcs d ps =
        (if emitMcs then [BitVec.ofNat 8 d] else []) ++
          ((full ++ [last]).flatMap fun b => BitVec.ofNat 8 b.length :: b) ++ [0x00#8] ∧
      (full ++ [last]).flatten = Reference.bytes (Reference.codes d ps) ∧
      2 ≤ (Reference.bytes (Reference.codes d ps)).length
end

