-- ==== Sys2Proof/Laws/Framing.lean ====
section
/-! SUPPORT. Laws/Framing.lean: how the sub-blocks of a run of bytes grow when bytes are added (Reference.lean). -/

namespace Sys2Proof.Reference

theorem fullBlocks_of_short {bs : List (BitVec 8)} (h : bs.length < 254) : fullBlocks bs = [] := by
  simp [fullBlocks, Nat.div_eq_of_lt h]

theorem lastGroup_of_short {bs : List (BitVec 8)} (h : bs.length < 254) : lastGroup bs = bs := by
  simp [lastGroup, Nat.div_eq_of_lt h]

/-- One group of 254 at the head. -/
theorem fullBlocks_group {g rest : List (BitVec 8)} (h : g.length = 254) :
    fullBlocks (g ++ rest) = 254#8 :: (g ++ fullBlocks rest) := by
  have hd : (g ++ rest).length / 254 = rest.length / 254 + 1 := by simp [h]
  unfold fullBlocks
  rw [hd, List.range_succ_eq_map, List.flatMap_cons, List.flatMap_map]
  simp only [Nat.mul_zero, List.drop_zero, List.cons_append]
  congr 2
  · rw [List.take_append_of_le_length (by omega), List.take_of_length_le (by omega)]
  · refine List.flatMap_congr fun i _ => ?_
    rw [show 254 * (i + 1) = g.length + 254 * i by omega, List.drop_length_add_append]

theorem lastGroup_group {g rest : List (BitVec 8)} (h : g.length = 254) :
    lastGroup (g ++ rest) = lastGroup rest := by
  have hd : (g ++ rest).length / 254 = rest.length / 254 + 1 := by simp [h]
  unfold lastGroup
  rw [hd, show 254 * (rest.length / 254 + 1) = g.length + 254 * (rest.length / 254) by omega,
    List.drop_length_add_append]

theorem lastGroup_length (bs : List (BitVec 8)) : (lastGroup bs).length = bs.length % 254 := by
  unfold lastGroup
  rw [List.length_drop]
  omega

theorem lastGroup_length_lt (bs : List (BitVec 8)) : (lastGroup bs).length < 254 := by
  rw [lastGroup_length]; omega

/-- Framing goes on from the last group, as if the full groups had never been there. -/
theorem blocks_append (bs more : List (BitVec 8)) :
    fullBlocks (bs ++ more) = fullBlocks bs ++ fullBlocks (lastGroup bs ++ more) ∧
      lastGroup (bs ++ more) = lastGroup (lastGroup bs ++ more) := by
  induction h : bs.length using Nat.strong_induction_on generalizing bs with
  | _ n ih =>
    subst h
    by_cases hs : bs.length < 254
    · simp [fullBlocks_of_short hs, lastGroup_of_short hs]
    · have hg : (bs.take 254).length = 254 := by simp; omega
      have hlt : (bs.drop 254).length < bs.length := by simp; omega
      obtain ⟨h1, h2⟩ := ih _ hlt (bs.drop 254) rfl
      have e : bs = bs.take 254 ++ bs.drop 254 := (List.take_append_drop ..).symm
      rw [e, List.append_assoc, fullBlocks_group hg, fullBlocks_group hg, lastGroup_group hg, lastGroup_group hg]
      exact ⟨by rw [h1]; simp, h2⟩

theorem fullBlocks_append (bs more : List (BitVec 8)) :
    fullBlocks (bs ++ more) = fullBlocks bs ++ fullBlocks (lastGroup bs ++ more) := (blocks_append bs more).1

theorem lastGroup_append (bs more : List (BitVec 8)) :
    lastGroup (bs ++ more) = lastGroup (lastGroup bs ++ more) := (blocks_append bs more).2

/-- One byte more, the buffer not yet full. -/
theorem blocks_push_short {bs : List (BitVec 8)} (b : BitVec 8) (h : bs.length + 1 < 254) :
    fullBlocks (bs ++ [b]) = [] ∧ lastGroup (bs ++ [b]) = bs ++ [b] :=
  ⟨fullBlocks_of_short (by simpa using h), lastGroup_of_short (by simpa using h)⟩

/-- The byte that fills the buffer. -/
theorem blocks_push_full {bs : List (BitVec 8)} (b : BitVec 8) (h : bs.length + 1 = 254) :
    fullBlocks (bs ++ [b]) = 254#8 :: (bs ++ [b]) ∧ lastGroup (bs ++ [b]) = [] := by
  have hg : (bs ++ [b]).length = 254 := by simpa using h
  have h1 := fullBlocks_group (rest := []) hg
  have h2 := lastGroup_group (rest := []) hg
  rw [List.append_nil] at h1 h2
  rw [h1, h2]
  simp [fullBlocks_of_short (bs := []) (by simp), lastGroup_of_short (bs := []) (by simp)]

/-- A frame goes on from the last group. -/
theorem frame_append (bs more : List (BitVec 8)) :
    frame (bs ++ more) = fullBlocks bs ++ frame (lastGroup bs ++ more) := by
  simp [frame, fullBlocks_append bs more, lastGroup_append bs more, List.append_assoc]

/-! ## The low bytes of a number -/

@[simp] theorem lowBytes_length (n v : Nat) : (lowBytes n v).length = n := by simp [lowBytes]

@[simp] theorem lowBytes_zero (v : Nat) : lowBytes 0 v = [] := rfl

/-- Least significant byte first. -/
theorem lowBytes_succ (n v : Nat) : lowBytes (n + 1) v = BitVec.ofNat 8 v :: lowBytes n (v / 256) := by
  unfold lowBytes
  rw [List.range_succ_eq_map]
  simp [Nat.pow_succ', Nat.div_div_eq_div_mul]

theorem lowBytes_add (m n v : Nat) : lowBytes (m + n) v = lowBytes m v ++ lowBytes n (v / 256 ^ m) := by
  induction m generalizing v with
  | zero => simp
  | succ m ih =>
    rw [show m + 1 + n = (m + n) + 1 by omega, lowBytes_succ, lowBytes_succ, ih, Nat.div_div_eq_div_mul,
      Nat.pow_succ', List.cons_append]

/-- What lies above the `n` bytes does not matter. -/
theorem lowBytes_add_high (n v u : Nat) : lowBytes n (v + 256 ^ n * u) = lowBytes n v := by
  induction n generalizing v u with
  | zero => simp
  | succ n ih =>
    rw [lowBytes_succ, lowBytes_succ]
    have h1 : v + 256 ^ (n + 1) * u = v + 256 * (256 ^ n * u) := by rw [Nat.pow_succ']; ring
    rw [h1, Nat.add_mul_div_left _ _ (by decide : 0 < 256), ih]
    congr 1
    apply BitVec.eq_of_toNat_eq
    simp

end Sys2Proof.Reference
end

