-- ==== Sys2Proof/Laws/State.lean ====
section
/-! SUPPORT. Laws/State.lean: for each named update of the state, what every field is after it. -/

namespace Sys2Proof.Machine

variable (s : State)


/-! ## raise -/

@[simp] theorem raise_phase (e : ErrCode) : (raise e s).phase = .err := rfl
@[simp] theorem raise_errcode (e : ErrCode) : (raise e s).errcode = e := rfl
@[simp] theorem raise_depth (e : ErrCode) : (raise e s).depth = s.depth := rfl
@[simp] theorem raise_havePrefix (e : ErrCode) : (raise e s).havePrefix = s.havePrefix := rfl
@[simp] theorem raise_prefixCode (e : ErrCode) : (raise e s).prefixCode = s.prefixCode := rfl
@[simp] theorem raise_width (e : ErrCode) : (raise e s).width = s.width := rfl
@[simp] theorem raise_nextCode (e : ErrCode) : (raise e s).nextCode = s.nextCode := rfl
@[simp] theorem raise_acc (e : ErrCode) : (raise e s).acc = s.acc := rfl
@[simp] theorem raise_nacc (e : ErrCode) : (raise e s).nacc = s.nacc := rfl
@[simp] theorem raise_blk (e : ErrCode) : (raise e s).blk = s.blk := rfl
@[simp] theorem raise_resets (e : ErrCode) : (raise e s).resets = s.resets := rfl
@[simp] theorem raise_blkcnt (e : ErrCode) : (raise e s).blkcnt = s.blkcnt := rfl
@[simp] theorem raise_dict (e : ErrCode) : (raise e s).dict = s.dict := rfl
@[simp] theorem raise_out (e : ErrCode) : (raise e s).out = s.out := rfl
@[simp] theorem raise_taken (e : ErrCode) : (raise e s).taken = s.taken := rfl
@[simp] theorem raise_input (e : ErrCode) : (raise e s).input = s.input := rfl
@[simp] theorem raise_emitMcs (e : ErrCode) : (raise e s).emitMcs = s.emitMcs := rfl

/-! ## dictInsert -/

@[simp] theorem dictInsert_phase (q : Code) (p : Pixel) (c : Code) : (dictInsert q p c s).phase = s.phase := rfl
@[simp] theorem dictInsert_errcode (q : Code) (p : Pixel) (c : Code) : (dictInsert q p c s).errcode = s.errcode := rfl
@[simp] theorem dictInsert_depth (q : Code) (p : Pixel) (c : Code) : (dictInsert q p c s).depth = s.depth := rfl
@[simp] theorem dictInsert_havePrefix (q : Code) (p : Pixel) (c : Code) : (dictInsert q p c s).havePrefix = s.havePrefix := rfl
@[simp] theorem dictInsert_prefixCode (q : Code) (p : Pixel) (c : Code) : (dictInsert q p c s).prefixCode = s.prefixCode := rfl
@[simp] theorem dictInsert_width (q : Code) (p : Pixel) (c : Code) : (dictInsert q p c s).width = s.width := rfl
@[simp] theorem dictInsert_nextCode (q : Code) (p : Pixel) (c : Code) : (dictInsert q p c s).nextCode = s.nextCode := rfl
@[simp] theorem dictInsert_acc (q : Code) (p : Pixel) (c : Code) : (dictInsert q p c s).acc = s.acc := rfl
@[simp] theorem dictInsert_nacc (q : Code) (p : Pixel) (c : Code) : (dictInsert q p c s).nacc = s.nacc := rfl
@[simp] theorem dictInsert_blk (q : Code) (p : Pixel) (c : Code) : (dictInsert q p c s).blk = s.blk := rfl
@[simp] theorem dictInsert_resets (q : Code) (p : Pixel) (c : Code) : (dictInsert q p c s).resets = s.resets := rfl
@[simp] theorem dictInsert_blkcnt (q : Code) (p : Pixel) (c : Code) : (dictInsert q p c s).blkcnt = s.blkcnt := rfl
@[simp] theorem dictInsert_dict (q : Code) (p : Pixel) (c : Code) : (dictInsert q p c s).dict = Assoc.put s.dict (dictKey q p) c := rfl
@[simp] theorem dictInsert_out (q : Code) (p : Pixel) (c : Code) : (dictInsert q p c s).out = s.out := rfl
@[simp] theorem dictInsert_taken (q : Code) (p : Pixel) (c : Code) : (dictInsert q p c s).taken = s.taken := rfl
@[simp] theorem dictInsert_input (q : Code) (p : Pixel) (c : Code) : (dictInsert q p c s).input = s.input := rfl
@[simp] theorem dictInsert_emitMcs (q : Code) (p : Pixel) (c : Code) : (dictInsert q p c s).emitMcs = s.emitMcs := rfl

/-! ## dictClear -/

@[simp] theorem dictClear_phase : (dictClear s).phase = s.phase := rfl
@[simp] theorem dictClear_errcode : (dictClear s).errcode = s.errcode := rfl
@[simp] theorem dictClear_depth : (dictClear s).depth = s.depth := rfl
@[simp] theorem dictClear_havePrefix : (dictClear s).havePrefix = s.havePrefix := rfl
@[simp] theorem dictClear_prefixCode : (dictClear s).prefixCode = s.prefixCode := rfl
@[simp] theorem dictClear_width : (dictClear s).width = s.width := rfl
@[simp] theorem dictClear_nextCode : (dictClear s).nextCode = s.nextCode := rfl
@[simp] theorem dictClear_acc : (dictClear s).acc = s.acc := rfl
@[simp] theorem dictClear_nacc : (dictClear s).nacc = s.nacc := rfl
@[simp] theorem dictClear_blk : (dictClear s).blk = s.blk := rfl
@[simp] theorem dictClear_resets : (dictClear s).resets = s.resets := rfl
@[simp] theorem dictClear_blkcnt : (dictClear s).blkcnt = s.blkcnt := rfl
@[simp] theorem dictClear_dict : (dictClear s).dict = [] := rfl
@[simp] theorem dictClear_out : (dictClear s).out = s.out := rfl
@[simp] theorem dictClear_taken : (dictClear s).taken = s.taken := rfl
@[simp] theorem dictClear_input : (dictClear s).input = s.input := rfl
@[simp] theorem dictClear_emitMcs : (dictClear s).emitMcs = s.emitMcs := rfl

/-! ## setPrefix -/

@[simp] theorem setPrefix_phase (c : Code) : (setPrefix c s).phase = s.phase := rfl
@[simp] theorem setPrefix_errcode (c : Code) : (setPrefix c s).errcode = s.errcode := rfl
@[simp] theorem setPrefix_depth (c : Code) : (setPrefix c s).depth = s.depth := rfl
@[simp] theorem setPrefix_havePrefix (c : Code) : (setPrefix c s).havePrefix = s.havePrefix := rfl
@[simp] theorem setPrefix_prefixCode (c : Code) : (setPrefix c s).prefixCode = c := rfl
@[simp] theorem setPrefix_width (c : Code) : (setPrefix c s).width = s.width := rfl
@[simp] theorem setPrefix_nextCode (c : Code) : (setPrefix c s).nextCode = s.nextCode := rfl
@[simp] theorem setPrefix_acc (c : Code) : (setPrefix c s).acc = s.acc := rfl
@[simp] theorem setPrefix_nacc (c : Code) : (setPrefix c s).nacc = s.nacc := rfl
@[simp] theorem setPrefix_blk (c : Code) : (setPrefix c s).blk = s.blk := rfl
@[simp] theorem setPrefix_resets (c : Code) : (setPrefix c s).resets = s.resets := rfl
@[simp] theorem setPrefix_blkcnt (c : Code) : (setPrefix c s).blkcnt = s.blkcnt := rfl
@[simp] theorem setPrefix_dict (c : Code) : (setPrefix c s).dict = s.dict := rfl
@[simp] theorem setPrefix_out (c : Code) : (setPrefix c s).out = s.out := rfl
@[simp] theorem setPrefix_taken (c : Code) : (setPrefix c s).taken = s.taken := rfl
@[simp] theorem setPrefix_input (c : Code) : (setPrefix c s).input = s.input := rfl
@[simp] theorem setPrefix_emitMcs (c : Code) : (setPrefix c s).emitMcs = s.emitMcs := rfl

/-! ## outAppend -/

@[simp] theorem outAppend_phase (bs : List Byte) : (outAppend bs s).phase = s.phase := rfl
@[simp] theorem outAppend_errcode (bs : List Byte) : (outAppend bs s).errcode = s.errcode := rfl
@[simp] theorem outAppend_depth (bs : List Byte) : (outAppend bs s).depth = s.depth := rfl
@[simp] theorem outAppend_havePrefix (bs : List Byte) : (outAppend bs s).havePrefix = s.havePrefix := rfl
@[simp] theorem outAppend_prefixCode (bs : List Byte) : (outAppend bs s).prefixCode = s.prefixCode := rfl
@[simp] theorem outAppend_width (bs : List Byte) : (outAppend bs s).width = s.width := rfl
@[simp] theorem outAppend_nextCode (bs : List Byte) : (outAppend bs s).nextCode = s.nextCode := rfl
@[simp] theorem outAppend_acc (bs : List Byte) : (outAppend bs s).acc = s.acc := rfl
@[simp] theorem outAppend_nacc (bs : List Byte) : (outAppend bs s).nacc = s.nacc := rfl
@[simp] theorem outAppend_blk (bs : List Byte) : (outAppend bs s).blk = s.blk := rfl
@[simp] theorem outAppend_resets (bs : List Byte) : (outAppend bs s).resets = s.resets := rfl
@[simp] theorem outAppend_blkcnt (bs : List Byte) : (outAppend bs s).blkcnt = s.blkcnt := rfl
@[simp] theorem outAppend_dict (bs : List Byte) : (outAppend bs s).dict = s.dict := rfl
@[simp] theorem outAppend_out (bs : List Byte) : (outAppend bs s).out = s.out ++ bs := rfl
@[simp] theorem outAppend_taken (bs : List Byte) : (outAppend bs s).taken = s.taken := rfl
@[simp] theorem outAppend_input (bs : List Byte) : (outAppend bs s).input = s.input := rfl
@[simp] theorem outAppend_emitMcs (bs : List Byte) : (outAppend bs s).emitMcs = s.emitMcs := rfl

/-! ## terminate -/

@[simp] theorem terminate_phase : (terminate s).phase = s.phase := rfl
@[simp] theorem terminate_errcode : (terminate s).errcode = s.errcode := rfl
@[simp] theorem terminate_depth : (terminate s).depth = s.depth := rfl
@[simp] theorem terminate_havePrefix : (terminate s).havePrefix = s.havePrefix := rfl
@[simp] theorem terminate_prefixCode : (terminate s).prefixCode = s.prefixCode := rfl
@[simp] theorem terminate_width : (terminate s).width = s.width := rfl
@[simp] theorem terminate_nextCode : (terminate s).nextCode = s.nextCode := rfl
@[simp] theorem terminate_acc : (terminate s).acc = s.acc := rfl
@[simp] theorem terminate_nacc : (terminate s).nacc = s.nacc := rfl
@[simp] theorem terminate_blk : (terminate s).blk = s.blk := rfl
@[simp] theorem terminate_resets : (terminate s).resets = s.resets := rfl
@[simp] theorem terminate_blkcnt : (terminate s).blkcnt = s.blkcnt := rfl
@[simp] theorem terminate_dict : (terminate s).dict = s.dict := rfl
@[simp] theorem terminate_out : (terminate s).out = s.out ++ [0x00#8] := rfl
@[simp] theorem terminate_taken : (terminate s).taken = s.taken := rfl
@[simp] theorem terminate_input : (terminate s).input = s.input := rfl
@[simp] theorem terminate_emitMcs : (terminate s).emitMcs = s.emitMcs := rfl

/-! ## applyReset -/

@[simp] theorem applyReset_phase : (applyReset s).phase = .idle := rfl
@[simp] theorem applyReset_errcode : (applyReset s).errcode = .none := rfl
@[simp] theorem applyReset_depth : (applyReset s).depth = 0 := rfl
@[simp] theorem applyReset_havePrefix : (applyReset s).havePrefix = false := rfl
@[simp] theorem applyReset_prefixCode : (applyReset s).prefixCode = 0 := rfl
@[simp] theorem applyReset_width : (applyReset s).width = 0 := rfl
@[simp] theorem applyReset_nextCode : (applyReset s).nextCode = 0 := rfl
@[simp] theorem applyReset_acc : (applyReset s).acc = 0 := rfl
@[simp] theorem applyReset_nacc : (applyReset s).nacc = 0 := rfl
@[simp] theorem applyReset_blk : (applyReset s).blk = [] := rfl
@[simp] theorem applyReset_resets : (applyReset s).resets = s.resets + 1 := rfl
@[simp] theorem applyReset_blkcnt : (applyReset s).blkcnt = 0 := rfl
@[simp] theorem applyReset_dict : (applyReset s).dict = [] := rfl
@[simp] theorem applyReset_out : (applyReset s).out = [] := rfl
@[simp] theorem applyReset_taken : (applyReset s).taken = 0 := rfl
@[simp] theorem applyReset_input : (applyReset s).input = s.input := rfl
@[simp] theorem applyReset_emitMcs : (applyReset s).emitMcs = s.emitMcs := rfl

/-! ## offer -/

@[simp] theorem offer_phase (e : PortEvent) : (offer e s).phase = s.phase := rfl
@[simp] theorem offer_errcode (e : PortEvent) : (offer e s).errcode = s.errcode := rfl
@[simp] theorem offer_depth (e : PortEvent) : (offer e s).depth = s.depth := rfl
@[simp] theorem offer_havePrefix (e : PortEvent) : (offer e s).havePrefix = s.havePrefix := rfl
@[simp] theorem offer_prefixCode (e : PortEvent) : (offer e s).prefixCode = s.prefixCode := rfl
@[simp] theorem offer_width (e : PortEvent) : (offer e s).width = s.width := rfl
@[simp] theorem offer_nextCode (e : PortEvent) : (offer e s).nextCode = s.nextCode := rfl
@[simp] theorem offer_acc (e : PortEvent) : (offer e s).acc = s.acc := rfl
@[simp] theorem offer_nacc (e : PortEvent) : (offer e s).nacc = s.nacc := rfl
@[simp] theorem offer_blk (e : PortEvent) : (offer e s).blk = s.blk := rfl
@[simp] theorem offer_resets (e : PortEvent) : (offer e s).resets = s.resets := rfl
@[simp] theorem offer_blkcnt (e : PortEvent) : (offer e s).blkcnt = s.blkcnt := rfl
@[simp] theorem offer_dict (e : PortEvent) : (offer e s).dict = s.dict := rfl
@[simp] theorem offer_out (e : PortEvent) : (offer e s).out = s.out := rfl
@[simp] theorem offer_taken (e : PortEvent) : (offer e s).taken = s.taken := rfl
@[simp] theorem offer_input (e : PortEvent) : (offer e s).input = e :: s.input := rfl
@[simp] theorem offer_emitMcs (e : PortEvent) : (offer e s).emitMcs = s.emitMcs := rfl

/-! ## freshTable -/

@[simp] theorem freshTable_phase : (freshTable s).phase = s.phase := rfl
@[simp] theorem freshTable_errcode : (freshTable s).errcode = s.errcode := rfl
@[simp] theorem freshTable_depth : (freshTable s).depth = s.depth := rfl
@[simp] theorem freshTable_havePrefix : (freshTable s).havePrefix = s.havePrefix := rfl
@[simp] theorem freshTable_prefixCode : (freshTable s).prefixCode = s.prefixCode := rfl
@[simp] theorem freshTable_width : (freshTable s).width = BitVec.ofNat 4 (initWidth s.depth) := rfl
@[simp] theorem freshTable_nextCode : (freshTable s).nextCode = BitVec.ofNat 13 (firstFree s.depth) := rfl
@[simp] theorem freshTable_acc : (freshTable s).acc = s.acc := rfl
@[simp] theorem freshTable_nacc : (freshTable s).nacc = s.nacc := rfl
@[simp] theorem freshTable_blk : (freshTable s).blk = s.blk := rfl
@[simp] theorem freshTable_resets : (freshTable s).resets = s.resets := rfl
@[simp] theorem freshTable_blkcnt : (freshTable s).blkcnt = s.blkcnt := rfl
@[simp] theorem freshTable_dict : (freshTable s).dict = [] := rfl
@[simp] theorem freshTable_out : (freshTable s).out = s.out := rfl
@[simp] theorem freshTable_taken : (freshTable s).taken = s.taken := rfl
@[simp] theorem freshTable_input : (freshTable s).input = s.input := rfl
@[simp] theorem freshTable_emitMcs : (freshTable s).emitMcs = s.emitMcs := rfl

/-! ## extendDict -/

@[simp] theorem extendDict_phase (q : Code) (p : Pixel) : (extendDict q p s).phase = s.phase := rfl
@[simp] theorem extendDict_errcode (q : Code) (p : Pixel) : (extendDict q p s).errcode = s.errcode := rfl
@[simp] theorem extendDict_depth (q : Code) (p : Pixel) : (extendDict q p s).depth = s.depth := rfl
@[simp] theorem extendDict_havePrefix (q : Code) (p : Pixel) : (extendDict q p s).havePrefix = s.havePrefix := rfl
@[simp] theorem extendDict_prefixCode (q : Code) (p : Pixel) : (extendDict q p s).prefixCode = s.prefixCode := rfl
@[simp] theorem extendDict_width (q : Code) (p : Pixel) : (extendDict q p s).width = s.width := rfl
@[simp] theorem extendDict_nextCode (q : Code) (p : Pixel) : (extendDict q p s).nextCode = s.nextCode + 1 := rfl
@[simp] theorem extendDict_acc (q : Code) (p : Pixel) : (extendDict q p s).acc = s.acc := rfl
@[simp] theorem extendDict_nacc (q : Code) (p : Pixel) : (extendDict q p s).nacc = s.nacc := rfl
@[simp] theorem extendDict_blk (q : Code) (p : Pixel) : (extendDict q p s).blk = s.blk := rfl
@[simp] theorem extendDict_resets (q : Code) (p : Pixel) : (extendDict q p s).resets = s.resets := rfl
@[simp] theorem extendDict_blkcnt (q : Code) (p : Pixel) : (extendDict q p s).blkcnt = s.blkcnt := rfl
@[simp] theorem extendDict_dict (q : Code) (p : Pixel) : (extendDict q p s).dict = Assoc.put s.dict (dictKey q p) (s.nextCode.setWidth 12) := rfl
@[simp] theorem extendDict_out (q : Code) (p : Pixel) : (extendDict q p s).out = s.out := rfl
@[simp] theorem extendDict_taken (q : Code) (p : Pixel) : (extendDict q p s).taken = s.taken := rfl
@[simp] theorem extendDict_input (q : Code) (p : Pixel) : (extendDict q p s).input = s.input := rfl
@[simp] theorem extendDict_emitMcs (q : Code) (p : Pixel) : (extendDict q p s).emitMcs = s.emitMcs := rfl

/-! ## startRegisters -/

@[simp] theorem startRegisters_phase (d : DepthField) : (startRegisters d s).phase = .run := rfl
@[simp] theorem startRegisters_errcode (d : DepthField) : (startRegisters d s).errcode = s.errcode := rfl
@[simp] theorem startRegisters_depth (d : DepthField) : (startRegisters d s).depth = d := rfl
@[simp] theorem startRegisters_havePrefix (d : DepthField) : (startRegisters d s).havePrefix = false := rfl
@[simp] theorem startRegisters_prefixCode (d : DepthField) : (startRegisters d s).prefixCode = 0 := rfl
@[simp] theorem startRegisters_width (d : DepthField) : (startRegisters d s).width = BitVec.ofNat 4 (initWidth d) := rfl
@[simp] theorem startRegisters_nextCode (d : DepthField) : (startRegisters d s).nextCode = BitVec.ofNat 13 (firstFree d) := rfl
@[simp] theorem startRegisters_acc (d : DepthField) : (startRegisters d s).acc = 0 := rfl
@[simp] theorem startRegisters_nacc (d : DepthField) : (startRegisters d s).nacc = 0 := rfl
@[simp] theorem startRegisters_blk (d : DepthField) : (startRegisters d s).blk = s.blk := rfl
@[simp] theorem startRegisters_resets (d : DepthField) : (startRegisters d s).resets = s.resets := rfl
@[simp] theorem startRegisters_blkcnt (d : DepthField) : (startRegisters d s).blkcnt = 0 := rfl
@[simp] theorem startRegisters_dict (d : DepthField) : (startRegisters d s).dict = [] := rfl
@[simp] theorem startRegisters_out (d : DepthField) : (startRegisters d s).out = s.out := rfl
@[simp] theorem startRegisters_taken (d : DepthField) : (startRegisters d s).taken = s.taken := rfl
@[simp] theorem startRegisters_input (d : DepthField) : (startRegisters d s).input = s.input := rfl
@[simp] theorem startRegisters_emitMcs (d : DepthField) : (startRegisters d s).emitMcs = s.emitMcs := rfl

/-! ## widthUpdate -/

@[simp] theorem widthUpdate_phase : (widthUpdate s).phase = s.phase := by unfold widthUpdate; split <;> rfl
@[simp] theorem widthUpdate_errcode : (widthUpdate s).errcode = s.errcode := by unfold widthUpdate; split <;> rfl
@[simp] theorem widthUpdate_depth : (widthUpdate s).depth = s.depth := by unfold widthUpdate; split <;> rfl
@[simp] theorem widthUpdate_havePrefix : (widthUpdate s).havePrefix = s.havePrefix := by unfold widthUpdate; split <;> rfl
@[simp] theorem widthUpdate_prefixCode : (widthUpdate s).prefixCode = s.prefixCode := by unfold widthUpdate; split <;> rfl
@[simp] theorem widthUpdate_nextCode : (widthUpdate s).nextCode = s.nextCode := by unfold widthUpdate; split <;> rfl
@[simp] theorem widthUpdate_acc : (widthUpdate s).acc = s.acc := by unfold widthUpdate; split <;> rfl
@[simp] theorem widthUpdate_nacc : (widthUpdate s).nacc = s.nacc := by unfold widthUpdate; split <;> rfl
@[simp] theorem widthUpdate_blk : (widthUpdate s).blk = s.blk := by unfold widthUpdate; split <;> rfl
@[simp] theorem widthUpdate_resets : (widthUpdate s).resets = s.resets := by unfold widthUpdate; split <;> rfl
@[simp] theorem widthUpdate_blkcnt : (widthUpdate s).blkcnt = s.blkcnt := by unfold widthUpdate; split <;> rfl
@[simp] theorem widthUpdate_dict : (widthUpdate s).dict = s.dict := by unfold widthUpdate; split <;> rfl
@[simp] theorem widthUpdate_out : (widthUpdate s).out = s.out := by unfold widthUpdate; split <;> rfl
@[simp] theorem widthUpdate_taken : (widthUpdate s).taken = s.taken := by unfold widthUpdate; split <;> rfl
@[simp] theorem widthUpdate_input : (widthUpdate s).input = s.input := by unfold widthUpdate; split <;> rfl
@[simp] theorem widthUpdate_emitMcs : (widthUpdate s).emitMcs = s.emitMcs := by unfold widthUpdate; split <;> rfl

/-! ## consumerTake -/

@[simp] theorem consumerTake_phase : (consumerTake s).phase = s.phase := by unfold consumerTake; split <;> rfl
@[simp] theorem consumerTake_errcode : (consumerTake s).errcode = s.errcode := by unfold consumerTake; split <;> rfl
@[simp] theorem consumerTake_depth : (consumerTake s).depth = s.depth := by unfold consumerTake; split <;> rfl
@[simp] theorem consumerTake_havePrefix : (consumerTake s).havePrefix = s.havePrefix := by unfold consumerTake; split <;> rfl
@[simp] theorem consumerTake_prefixCode : (consumerTake s).prefixCode = s.prefixCode := by unfold consumerTake; split <;> rfl
@[simp] theorem consumerTake_width : (consumerTake s).width = s.width := by unfold consumerTake; split <;> rfl
@[simp] theorem consumerTake_nextCode : (consumerTake s).nextCode = s.nextCode := by unfold consumerTake; split <;> rfl
@[simp] theorem consumerTake_acc : (consumerTake s).acc = s.acc := by unfold consumerTake; split <;> rfl
@[simp] theorem consumerTake_nacc : (consumerTake s).nacc = s.nacc := by unfold consumerTake; split <;> rfl
@[simp] theorem consumerTake_blk : (consumerTake s).blk = s.blk := by unfold consumerTake; split <;> rfl
@[simp] theorem consumerTake_resets : (consumerTake s).resets = s.resets := by unfold consumerTake; split <;> rfl
@[simp] theorem consumerTake_blkcnt : (consumerTake s).blkcnt = s.blkcnt := by unfold consumerTake; split <;> rfl
@[simp] theorem consumerTake_dict : (consumerTake s).dict = s.dict := by unfold consumerTake; split <;> rfl
@[simp] theorem consumerTake_out : (consumerTake s).out = s.out := by unfold consumerTake; split <;> rfl
@[simp] theorem consumerTake_input : (consumerTake s).input = s.input := by unfold consumerTake; split <;> rfl
@[simp] theorem consumerTake_emitMcs : (consumerTake s).emitMcs = s.emitMcs := by unfold consumerTake; split <;> rfl

/-! ## emitMinCodeSize -/

@[simp] theorem emitMinCodeSize_phase : (emitMinCodeSize s).phase = s.phase := by unfold emitMinCodeSize; split <;> rfl
@[simp] theorem emitMinCodeSize_errcode : (emitMinCodeSize s).errcode = s.errcode := by unfold emitMinCodeSize; split <;> rfl
@[simp] theorem emitMinCodeSize_depth : (emitMinCodeSize s).depth = s.depth := by unfold emitMinCodeSize; split <;> rfl
@[simp] theorem emitMinCodeSize_havePrefix : (emitMinCodeSize s).havePrefix = s.havePrefix := by unfold emitMinCodeSize; split <;> rfl
@[simp] theorem emitMinCodeSize_prefixCode : (emitMinCodeSize s).prefixCode = s.prefixCode := by unfold emitMinCodeSize; split <;> rfl
@[simp] theorem emitMinCodeSize_width : (emitMinCodeSize s).width = s.width := by unfold emitMinCodeSize; split <;> rfl
@[simp] theorem emitMinCodeSize_nextCode : (emitMinCodeSize s).nextCode = s.nextCode := by unfold emitMinCodeSize; split <;> rfl
@[simp] theorem emitMinCodeSize_acc : (emitMinCodeSize s).acc = s.acc := by unfold emitMinCodeSize; split <;> rfl
@[simp] theorem emitMinCodeSize_nacc : (emitMinCodeSize s).nacc = s.nacc := by unfold emitMinCodeSize; split <;> rfl
@[simp] theorem emitMinCodeSize_blk : (emitMinCodeSize s).blk = s.blk := by unfold emitMinCodeSize; split <;> rfl
@[simp] theorem emitMinCodeSize_resets : (emitMinCodeSize s).resets = s.resets := by unfold emitMinCodeSize; split <;> rfl
@[simp] theorem emitMinCodeSize_blkcnt : (emitMinCodeSize s).blkcnt = s.blkcnt := by unfold emitMinCodeSize; split <;> rfl
@[simp] theorem emitMinCodeSize_dict : (emitMinCodeSize s).dict = s.dict := by unfold emitMinCodeSize; split <;> rfl
@[simp] theorem emitMinCodeSize_taken : (emitMinCodeSize s).taken = s.taken := by unfold emitMinCodeSize; split <;> rfl
@[simp] theorem emitMinCodeSize_input : (emitMinCodeSize s).input = s.input := by unfold emitMinCodeSize; split <;> rfl
@[simp] theorem emitMinCodeSize_emitMcs : (emitMinCodeSize s).emitMcs = s.emitMcs := by unfold emitMinCodeSize; split <;> rfl

theorem widthUpdate_width : (widthUpdate s).width =
    if s.width.toNat < Config.maxBits ∧ 2 ^ s.width.toNat ≤ s.nextCode.toNat then s.width + 1 else s.width := by
  unfold widthUpdate; split <;> rfl

theorem consumerTake_taken : (consumerTake s).taken = if outPending s then s.taken + 1 else s.taken := by
  unfold consumerTake outValid; split <;> rfl

theorem emitMinCodeSize_out : (emitMinCodeSize s).out =
    s.out ++ (if s.emitMcs then [s.depth.zeroExtend 8] else []) := by
  unfold emitMinCodeSize; split <;> simp

end Sys2Proof.Machine
end

