-- ==== Sys2Proof/Laws/Ops.lean ====
section
/-! SUPPORT. Laws/Ops.lean: what the shared operations over results, finite maps, the dictionary and `BLK` can do. -/

namespace Sys2Proof.Machine

/-! ## Sequencing -/

@[simp] theorem andThen_of_next (s : State) (f : State → Result) : andThen (.next s) f = f s := rfl

theorem andThen_next_iff {r : Result} {f : State → Result} {t : State} :
    andThen r f = .next t ↔ ∃ s, r = .next s ∧ f s = .next t := by
  cases r <;> simp [andThen]

/-- What `whenLegal` answers, in one disjunction: discarded in `ERR`, performed in a legal phase, else `ERR_SEQ`. -/
theorem whenLegal_cases (legal : List Phase) (s : State) (k : Result) :
    (s.phase = .err ∧ whenLegal legal s k = .next s) ∨
    (s.phase ≠ .err ∧ s.phase ∈ legal ∧ whenLegal legal s k = k) ∨
    (s.phase ≠ .err ∧ s.phase ∉ legal ∧ whenLegal legal s k = .next (raise .seq s)) := by
  unfold whenLegal
  by_cases h : s.phase = .err
  · simp [h]
  · by_cases h' : s.phase ∈ legal <;> simp [h, h']

/-! ## Finite maps -/

section Assoc
variable {β : Type}

@[simp] theorem Assoc.get_nil (k : Nat) : Assoc.get ([] : List (Nat × β)) k = none := rfl

theorem Assoc.get_put_self (m : List (Nat × β)) (k : Nat) (v : β) : Assoc.get (Assoc.put m k v) k = some v := by
  induction m with
  | nil => simp [Assoc.put, Assoc.get]
  | cons x m ih =>
    obtain ⟨k', v'⟩ := x
    unfold Assoc.put
    split
    · simp [Assoc.get]
    · split
      · simp [Assoc.get]
      · simp [Assoc.get, *]

theorem Assoc.get_put_ne (m : List (Nat × β)) {k j : Nat} (v : β) (h : j ≠ k) :
    Assoc.get (Assoc.put m k v) j = Assoc.get m j := by
  induction m with
  | nil => simp [Assoc.put, Assoc.get, h]
  | cons x m ih =>
    obtain ⟨k', v'⟩ := x
    unfold Assoc.put
    split
    · simp [Assoc.get, h]
    · split
      · subst_vars; simp [Assoc.get, h]
      · simp [Assoc.get, ih]

theorem Assoc.get_put (m : List (Nat × β)) (k j : Nat) (v : β) :
    Assoc.get (Assoc.put m k v) j = if j = k then some v else Assoc.get m j := by
  split
  · subst_vars; exact Assoc.get_put_self ..
  · exact Assoc.get_put_ne _ _ ‹_›

theorem Assoc.mem_put {m : List (Nat × β)} {k : Nat} {v : β} {x : Nat × β} (h : x ∈ Assoc.put m k v) :
    x = (k, v) ∨ x ∈ m := by
  induction m with
  | nil => simpa [Assoc.put] using h
  | cons y m ih =>
    unfold Assoc.put at h
    split at h
    · simpa using h
    · split at h
      · rcases List.mem_cons.1 h with rfl | h
        · exact .inl rfl
        · exact .inr (List.mem_cons_of_mem _ h)
      · rcases List.mem_cons.1 h with rfl | h
        · exact .inr (List.mem_cons_self ..)
        · exact (ih h).imp id (List.mem_cons_of_mem _)

theorem Assoc.rising_put {m : List (Nat × β)} (k : Nat) (v : β) (h : Assoc.Rising m) :
    Assoc.Rising (Assoc.put m k v) := by
  induction m with
  | nil => simp [Assoc.put, Assoc.Rising]
  | cons y m ih =>
    obtain ⟨k', v'⟩ := y
    obtain ⟨hy, hm⟩ := List.pairwise_cons.1 h
    unfold Assoc.put
    split
    · refine List.pairwise_cons.2 ⟨?_, h⟩
      intro x hx
      rcases List.mem_cons.1 hx with rfl | hx
      · assumption
      · have := hy x hx; simp only at *; omega
    · split
      · subst_vars
        exact List.pairwise_cons.2 ⟨hy, hm⟩
      · refine List.pairwise_cons.2 ⟨?_, ih hm⟩
        intro x hx
        rcases Assoc.mem_put hx with rfl | hx
        · simp only; omega
        · exact hy x hx

/-- In a rising map a listed pair is what the map holds at its key. -/
theorem Assoc.get_of_mem {m : List (Nat × β)} {k : Nat} {v : β} (h : Assoc.Rising m) (hm : (k, v) ∈ m) :
    Assoc.get m k = some v := by
  induction m with
  | nil => simp at hm
  | cons y m ih =>
    obtain ⟨k', v'⟩ := y
    obtain ⟨hy, hr⟩ := List.pairwise_cons.1 h
    rcases List.mem_cons.1 hm with e | hm
    · simp_all [Assoc.get]
    · have := hy _ hm
      simp only at this
      simp [Assoc.get, ih hr hm, show k ≠ k' by omega]

theorem Assoc.mem_of_get {m : List (Nat × β)} {k : Nat} {v : β} (h : Assoc.get m k = some v) : (k, v) ∈ m := by
  induction m with
  | nil => simp at h
  | cons y m ih =>
    obtain ⟨k', v'⟩ := y
    unfold Assoc.get at h
    split at h
    · simp_all
    · exact List.mem_cons_of_mem _ (ih h)

/-- Writing at an absent key lists one pair more. -/
theorem Assoc.length_put_of_absent {m : List (Nat × β)} {k : Nat} (v : β) (h : Assoc.get m k = none) :
    (Assoc.put m k v).length = m.length + 1 := by
  induction m with
  | nil => rfl
  | cons y m ih =>
    obtain ⟨k', v'⟩ := y
    unfold Assoc.get at h
    split at h
    · simp at h
    · unfold Assoc.put
      split
      · rfl
      · simp [ih h, *]

end Assoc

/-- A write to `BLK` keeps the canonical form. -/
theorem Memory.wf_write {m : BlkMem} {i : Nat} (b : Byte) (h : Memory.wf m) (hi : i < Config.blockMax) :
    Memory.wf (Memory.write m i b) :=
  ⟨Assoc.rising_put _ _ h.1, fun _ hc => (Assoc.mem_put hc).elim (fun e => e ▸ hi) (h.2 _)⟩

theorem Memory.read_write (m : BlkMem) (i j : Nat) (b : Byte) :
    Memory.read (Memory.write m i b) j = if j = i then some b else Memory.read m j := Assoc.get_put ..

/-! ## The dictionary -/

theorem dictKey_eq (q : Code) (p : Pixel) : dictKey q p = p.toNat * 4096 + q.toNat := by
  unfold dictKey
  rw [BitVec.toNat_append, ← Nat.shiftLeft_add_eq_or_of_lt q.isLt, Nat.shiftLeft_eq]

theorem dictKey_lt (q : Code) (p : Pixel) : dictKey q p < 2 ^ 20 := BitVec.isLt _

/-- R84: the key of a pair determines the pair. -/
theorem dictKey_inj {q q' : Code} {p p' : Pixel} : dictKey q p = dictKey q' p' ↔ q = q' ∧ p = p' := by
  refine ⟨fun h => ?_, fun ⟨a, b⟩ => by rw [a, b]⟩
  rw [dictKey_eq, dictKey_eq] at h
  have := q.isLt
  have := q'.isLt
  exact ⟨BitVec.eq_of_toNat_eq (by omega), BitVec.eq_of_toNat_eq (by omega)⟩

theorem Dict.wf_put {m : Dict} (q : Code) (p : Pixel) (c : Code) (h : Dict.wf m) :
    Dict.wf (Assoc.put m (dictKey q p) c) :=
  ⟨Assoc.rising_put _ _ h.1, fun _ hc => (Assoc.mem_put hc).elim (fun e => e ▸ dictKey_lt q p) (h.2 _)⟩

/-- A lookup after an insertion. -/
theorem dictLookup_put {s t : State} {q : Code} {p : Pixel} {c : Code}
    (h : t.dict = Assoc.put s.dict (dictKey q p) c) (q' : Code) (p' : Pixel) :
    dictLookup q' p' t = if q' = q ∧ p' = p then some c else dictLookup q' p' s := by
  simp only [dictLookup, h, Assoc.get_put, dictKey_inj]

theorem dictLookup_empty {s : State} (h : s.dict = []) (q : Code) (p : Pixel) : dictLookup q p s = none := by
  simp [dictLookup, h]

/-! ## The sub-block buffer -/

/-- Where nothing has been stored in between, an element reads as before. -/
theorem blkRead_congr {s t : State} {i : Nat} (h : Memory.read t.blk i = Memory.read s.blk i)
    (hr : t.resets = s.resets) : blkRead t i = blkRead s i := by unfold blkRead; rw [h, hr]

/-- An element after a store. -/
theorem blkRead_write {s t : State} {i : Nat} {b : Byte} (h : t.blk = Memory.write s.blk i b)
    (hr : t.resets = s.resets) (j : Nat) : blkRead t j = if j = i then b else blkRead s j := by
  unfold blkRead; rw [h, hr, Memory.read_write]; split <;> rfl

@[simp] theorem pendingBytes_length (s : State) : (pendingBytes s).length = s.blkcnt.toNat := by simp [pendingBytes]

theorem pendingBytes_congr {s t : State} (hb : t.blk = s.blk) (hc : t.blkcnt = s.blkcnt) (hr : t.resets = s.resets) :
    pendingBytes t = pendingBytes s := by unfold pendingBytes blkRead; rw [hb, hc, hr]

theorem pendingBytes_empty {s : State} (hc : s.blkcnt = 0) : pendingBytes s = [] := by
  unfold pendingBytes; rw [hc]; rfl

/-- The byte stored at `BLKCNT` joins the waiting ones. -/
theorem pendingBytes_store {s t : State} {b : Byte} (hb : t.blk = Memory.write s.blk s.blkcnt.toNat b)
    (hc : t.blkcnt.toNat = s.blkcnt.toNat + 1) (hr : t.resets = s.resets) :
    pendingBytes t = pendingBytes s ++ [b] := by
  unfold pendingBytes
  rw [hc, List.range_succ, List.map_append, List.map_singleton, blkRead_write hb hr, if_pos rfl]
  congr 1
  refine List.map_congr_left fun i hi => ?_
  rw [blkRead_write hb hr, if_neg (Nat.ne_of_lt (List.mem_range.1 hi))]

theorem PendingWritten.congr {s t : State} (h : PendingWritten s) (hb : t.blk = s.blk) (hc : t.blkcnt = s.blkcnt) :
    PendingWritten t := by unfold PendingWritten at *; rwa [hb, hc]

theorem PendingWritten.of_empty {s : State} (hc : s.blkcnt = 0) : PendingWritten s := by
  unfold PendingWritten; rw [hc]; simp

theorem PendingWritten.store {s t : State} {b : Byte} (h : PendingWritten s)
    (hb : t.blk = Memory.write s.blk s.blkcnt.toNat b) (hc : t.blkcnt.toNat = s.blkcnt.toNat + 1) :
    PendingWritten t := by
  intro i hi
  rw [hb, Memory.read_write]
  split
  · rfl
  · exact h i (by omega)

end Sys2Proof.Machine
end

