-- ==== Sys2Proof/Laws/Packer.lean ====
section
/-! SUPPORT. Laws/Packer.lean: what the bit packer's operations can do (42_bit_packer.md). -/

namespace Sys2Proof.Machine

open Reference

/-! ## What any answer of the packer leaves alone -/

@[simp] theorem OnlyPackerChanged.refl (s : State) : OnlyPackerChanged s s := rfl

theorem OnlyPackerChanged.trans {s t u : State} (h : OnlyPackerChanged s t) (k : OnlyPackerChanged t u) :
    OnlyPackerChanged s u := by
  unfold OnlyPackerChanged at *
  rw [k, h]

/-- R152: `FlushBlock` answers for every count that R31 gives `BLKCNT`. -/
theorem flushBlock_eq {s : State} (h : s.blkcnt.toNat ≤ 254) :
    flushBlock s = .next { s with
      out := s.out ++ (if pendingBytes s = [] then [] else BitVec.ofNat 8 (pendingBytes s).length :: pendingBytes s)
      blkcnt := 0 } := by
  unfold flushBlock
  by_cases h0 : s.blkcnt = 0
  · rw [if_pos h0, pendingBytes_empty h0]
    simp only [if_pos, List.append_nil]
    rw [← h0]
  · have hp : pendingBytes s ≠ [] := fun e => h0 (BitVec.eq_of_toNat_eq (by
      rw [← pendingBytes_length, e]; rfl))
    rw [if_neg h0, if_pos h]
    simp [hp, outAppend]

theorem flushBlock_bound {s t : State} (h : flushBlock s = .next t) : s.blkcnt.toNat ≤ 254 := by
  unfold flushBlock at h
  split at h
  · rename_i h0; rw [h0]; simp
  · split at h
    · assumption
    · simp at h

/-- What `putByte` answers: the byte is in `BLK` at `BLKCNT`, and a buffer that it fills is framed. -/
theorem putByte_eq (b : Byte) {s : State} (h : s.blkcnt.toNat ≤ 253) :
    putByte b s = .next (
      if s.blkcnt.toNat < 253 then
        { s with blk := Memory.write s.blk s.blkcnt.toNat b, blkcnt := s.blkcnt + 1 }
      else
        { s with
          blk := Memory.write s.blk s.blkcnt.toNat b
          blkcnt := 0
          out := s.out ++ 254#8 :: (pendingBytes s ++ [b]) }) := by
  have hcnt : (s.blkcnt + 1).toNat = s.blkcnt.toNat + 1 := by rw [BitVec.toNat_add]; simp; omega
  unfold putByte blkStore
  simp only [Config.blockMax]
  rw [if_pos (by omega), andThen_of_next]
  simp only [hcnt]
  by_cases hf : s.blkcnt.toNat < 253
  · rw [if_neg (by omega), if_pos hf]
  · rw [if_pos (by omega), if_neg hf, flushBlock_eq (by simp only [hcnt]; omega),
      pendingBytes_store (s := s) (t := { s with blk := Memory.write s.blk s.blkcnt.toNat b, blkcnt := s.blkcnt + 1 }) rfl
        hcnt rfl]
    simp [show s.blkcnt.toNat = 253 by omega]

theorem putByte_bound {b : Byte} {s t : State} (h : putByte b s = .next t) : s.blkcnt.toNat ≤ 253 := by
  obtain ⟨u, hu, -⟩ := andThen_next_iff.1 h
  unfold blkStore at hu
  split at hu
  · rename_i hlt
    have : s.blkcnt.toNat < 254 := hlt
    omega
  · simp at hu

/-- What `k` stores leave alone: every element of `BLK` but the `k` from `BLKCNT` on (going on at 0 after 253), the
canonical form, that no unstored element waits, and `OUT` up to its end. -/
structure StoredAtMost (s t : State) (k : Nat) : Prop where
  blk_wf : Memory.wf s.blk → Memory.wf t.blk
  written : PendingWritten s → PendingWritten t
  read_eq : ∀ i, (∀ j < k, i ≠ (s.blkcnt.toNat + j) % 254) → Memory.read t.blk i = Memory.read s.blk i
  count_eq : 0 < k → t.blkcnt.toNat = (s.blkcnt.toNat + k) % 254
  none_eq : k = 0 → t.blkcnt = s.blkcnt ∧ t.blk = s.blk ∧ t.out = s.out
  out_grows : ∃ bs, t.out = s.out ++ bs

theorem StoredAtMost.refl {s t : State} (hb : t.blk = s.blk) (hc : t.blkcnt = s.blkcnt) (ho : t.out = s.out) :
    StoredAtMost s t 0 :=
  ⟨fun hw => hb ▸ hw, fun hw => hw.congr hb hc, fun _ _ => by rw [hb], by omega, fun _ => ⟨hc, hb, ho⟩, ⟨[], by simp [ho]⟩⟩

theorem StoredAtMost.trans {s t u : State} {j k : Nat} (h : StoredAtMost s t j) (h' : StoredAtMost t u k) :
    StoredAtMost s u (j + k) := by
  obtain ⟨b1, hb1⟩ := h.out_grows
  obtain ⟨b2, hb2⟩ := h'.out_grows
  refine ⟨fun hw => h'.blk_wf (h.blk_wf hw), fun hw => h'.written (h.written hw), fun i hi => ?_, fun hpos => ?_, fun h0 => ?_,
    ⟨b1 ++ b2, by rw [hb2, hb1, List.append_assoc]⟩⟩
  · rw [h'.read_eq i fun m hm => ?_, h.read_eq i fun m hm => hi m (by omega)]
    rcases Nat.eq_zero_or_pos j with rfl | hj
    · rw [(h.none_eq rfl).1]; simpa using hi m (by omega)
    · rw [h.count_eq hj, Nat.mod_add_mod, Nat.add_assoc]; exact hi (j + m) (by omega)
  · rcases Nat.eq_zero_or_pos k with rfl | hk
    · rw [(h'.none_eq rfl).1, h.count_eq (by omega), Nat.add_zero]
    · rw [h'.count_eq hk]
      rcases Nat.eq_zero_or_pos j with rfl | hj
      · rw [(h.none_eq rfl).1, Nat.zero_add]
      · rw [h.count_eq hj, Nat.mod_add_mod, Nat.add_assoc]
  · obtain ⟨a1, a2, a3⟩ := h.none_eq (by omega)
    obtain ⟨c1, c2, c3⟩ := h'.none_eq (by omega)
    exact ⟨c1.trans a1, c2.trans a2, c3.trans a3⟩

/-- An update that keeps `BLK`, `BLKCNT` and `OUT` stores nothing. -/
theorem StoredAtMost.congr {s t u : State} {k : Nat} (h : StoredAtMost s t k) (hb : u.blk = t.blk)
    (hc : u.blkcnt = t.blkcnt) (ho : u.out = t.out) : StoredAtMost s u k := h.trans (.refl hb hc ho)

/-- `PutByte` changes nothing but `BLK`, `BLKCNT` and `OUT`. -/
theorem putByte_only {b : Byte} {s t : State} (h : putByte b s = .next t) :
    t = { s with blk := t.blk, blkcnt := t.blkcnt, out := t.out } := by
  rw [putByte_eq b (putByte_bound h)] at h
  injection h with h
  subst h
  split <;> rfl

theorem putByte_storedAtMost {b : Byte} {s t : State} (h : putByte b s = .next t) : StoredAtMost s t 1 := by
  have hle := putByte_bound h
  rw [putByte_eq b hle] at h
  injection h with h
  have hcnt : (s.blkcnt + 1).toNat = s.blkcnt.toNat + 1 := by rw [BitVec.toNat_add]; simp; omega
  have hblk : t.blk = Memory.write s.blk s.blkcnt.toNat b := by subst h; split <;> rfl
  have hread : ∀ i, (∀ j < 1, i ≠ (s.blkcnt.toNat + j) % 254) → Memory.read t.blk i = Memory.read s.blk i := by
    intro i hi
    have := hi 0 (by omega)
    rw [Nat.add_zero, Nat.mod_eq_of_lt (by omega)] at this
    rw [hblk, Memory.read_write, if_neg this]
  have hwf : Memory.wf s.blk → Memory.wf t.blk := fun hw =>
    hblk ▸ Memory.wf_write b hw (by simp only [Config.blockMax]; omega)
  by_cases hf : s.blkcnt.toNat < 253
  · rw [if_pos hf] at h
    have hc : t.blkcnt.toNat = s.blkcnt.toNat + 1 := by rw [← h]; exact hcnt
    exact ⟨hwf, fun hw => hw.store hblk hc, hread, fun _ => by omega, by omega, ⟨[], by rw [← h]; simp⟩⟩
  · rw [if_neg hf] at h
    have hc : t.blkcnt = 0 := by rw [← h]
    exact ⟨hwf, fun _ => .of_empty hc, hread, fun _ => by rw [hc]; simp; omega, by omega, ⟨_, by rw [← h]⟩⟩

theorem packLoop_next {n : Nat} : ∀ {s t : State}, s.nacc.toNat / 8 = n → packLoop n s = .next t →
    OnlyPackerChanged s t ∧ StoredAtMost s t n ∧ t.nacc.toNat = s.nacc.toNat % 8 := by
  induction n with
  | zero =>
    intro s t hn h
    injection h with h
    subst h
    exact ⟨rfl, .refl rfl rfl rfl, by omega⟩
  | succ n ih =>
    intro s t hn h
    unfold packLoop at h
    rw [if_pos (by omega)] at h
    obtain ⟨u, hu, ht⟩ := andThen_next_iff.1 h
    have ho := putByte_only hu
    have hnacc : u.nacc = s.nacc := by rw [ho]
    have hsub : (u.nacc - 8).toNat = s.nacc.toNat - 8 := by
      have := s.nacc.isLt
      rw [hnacc, BitVec.toNat_sub]; simp; omega
    obtain ⟨h2, h3, hn2⟩ := ih (by simp only; rw [hsub]; omega) ht
    have hmid : OnlyPackerChanged s { u with acc := u.acc >>> 8, nacc := u.nacc - 8 } := by
      unfold OnlyPackerChanged; rw [ho]
    refine ⟨hmid.trans h2, ?_, by rw [hn2]; simp only; rw [hsub]; omega⟩
    have := ((putByte_storedAtMost hu).congr (u := { u with acc := u.acc >>> 8, nacc := u.nacc - 8 }) rfl rfl rfl).trans h3
    rwa [show 1 + n = n + 1 by omega] at this

/-- What `packBits` answers, if it answers. -/
theorem packBits_next {c w : Nat} {s t : State} (h : packBits c w s = .next t) :
    OnlyPackerChanged s t ∧ StoredAtMost s t ((s.nacc.toNat + w) / 8) ∧ t.nacc.toNat = (s.nacc.toNat + w) % 8 := by
  unfold packBits at h
  simp only [Config.accBits] at h
  by_cases hb : s.acc.toNat + c <<< s.nacc.toNat < 2 ^ 19 ∧ s.nacc.toNat + w ≤ 19
  · rw [if_pos hb] at h
    have hmod : (BitVec.ofNat 5 (s.nacc.toNat + w)).toNat = s.nacc.toNat + w := by
      rw [BitVec.toNat_ofNat]; omega
    obtain ⟨h1, h2, h3⟩ := packLoop_next (by simp only; rw [hmod]) h
    simp only [hmod] at h3
    refine ⟨?_, ?_, h3⟩
    · exact OnlyPackerChanged.trans (t := { s with
        acc := BitVec.ofNat 19 (s.acc.toNat + c <<< s.nacc.toNat), nacc := BitVec.ofNat 5 (s.nacc.toNat + w) }) rfl h1
    · exact ⟨h2.blk_wf, h2.written, h2.read_eq, h2.count_eq, h2.none_eq, h2.out_grows⟩
  · rw [if_neg hb] at h
    simp at h

/-! ## What the packer does when the buffer is in order -/

/-- `t` is `s` after the bytes `bs` went to `PutByte`: full groups have been framed into `OUT`, the rest waits. -/
structure Stored (s t : State) (bs : List Byte) : Prop where
  count_le : t.blkcnt.toNat ≤ 253
  out_eq : t.out = s.out ++ fullBlocks (pendingBytes s ++ bs)
  pending_eq : pendingBytes t = lastGroup (pendingBytes s ++ bs)

theorem Stored.refl {s t : State} (h : s.blkcnt.toNat ≤ 253) (hb : t.blk = s.blk) (hc : t.blkcnt = s.blkcnt)
    (hr : t.resets = s.resets) (ho : t.out = s.out) : Stored s t [] := by
  have hl : (pendingBytes s).length < 254 := by rw [pendingBytes_length]; omega
  exact ⟨by rw [hc]; exact h, by simp [ho, fullBlocks_of_short hl],
    by rw [pendingBytes_congr hb hc hr, List.append_nil, lastGroup_of_short hl]⟩

theorem Stored.trans {s t u : State} {a b : List Byte} (h : Stored s t a) (h' : Stored t u b) :
    Stored s u (a ++ b) :=
  ⟨h'.count_le, by rw [h'.out_eq, h.out_eq, h.pending_eq, ← List.append_assoc, fullBlocks_append (pendingBytes s ++ a),
      List.append_assoc],
    by rw [h'.pending_eq, h.pending_eq, ← List.append_assoc, ← lastGroup_append]⟩

/-- R151: `PutByte` answers, and does what the framing of R155 says. -/
theorem putByte_stored {s : State} (b : Byte) (h : s.blkcnt.toNat ≤ 253) :
    ∃ t, putByte b s = .next t ∧ Stored s t [b] := by
  have hcnt : (s.blkcnt + 1).toNat = s.blkcnt.toNat + 1 := by rw [BitVec.toNat_add]; simp; omega
  have hlen := pendingBytes_length s
  refine ⟨_, putByte_eq b h, ?_⟩
  by_cases hf : s.blkcnt.toNat < 253
  · obtain ⟨f1, f2⟩ := blocks_push_short (bs := pendingBytes s) b (by omega)
    rw [if_pos hf]
    exact ⟨by simp only [hcnt]; omega, by rw [f1, List.append_nil], by rw [f2]; exact pendingBytes_store rfl hcnt rfl⟩
  · obtain ⟨f1, f2⟩ := blocks_push_full (bs := pendingBytes s) b (by omega)
    rw [if_neg hf]
    exact ⟨by simp, by rw [f1], by rw [f2, pendingBytes_empty rfl]⟩

theorem packLoop_stored {n : Nat} : ∀ {s : State}, s.blkcnt.toNat ≤ 253 → s.nacc.toNat / 8 = n →
    ∃ t, packLoop n s = .next t ∧ Stored s t (lowBytes n s.acc.toNat) ∧ t.acc.toNat = s.acc.toNat / 256 ^ n := by
  induction n with
  | zero => intro s h _; exact ⟨s, rfl, .refl h rfl rfl rfl rfl, by simp⟩
  | succ n ih =>
    intro s h hn
    obtain ⟨u, hu, hs⟩ := putByte_stored (s.acc.extractLsb' 0 8) h
    have hacc : u.acc = s.acc := by rw [putByte_only hu]
    have hnacc : u.nacc = s.nacc := by rw [putByte_only hu]
    have hsub : (u.nacc - 8).toNat = s.nacc.toNat - 8 := by
      have := s.nacc.isLt
      rw [hnacc, BitVec.toNat_sub]; simp; omega
    have hshift : (u.acc >>> 8).toNat = s.acc.toNat / 256 := by
      rw [hacc, BitVec.toNat_ushiftRight, Nat.shiftRight_eq_div_pow]
    have hmid : Stored u { u with acc := u.acc >>> 8, nacc := u.nacc - 8 } [] := .refl hs.count_le rfl rfl rfl rfl
    obtain ⟨t, ht, hst, ha⟩ := ih hmid.count_le (by simp only; rw [hsub]; omega)
    refine ⟨t, ?_, ?_, ?_⟩
    · unfold packLoop; rw [if_pos (by omega), hu]; exact ht
    · have := (hs.trans hmid).trans hst
      simp only [hshift, List.append_nil] at this
      rw [lowBytes_succ]
      have hb : s.acc.extractLsb' 0 8 = BitVec.ofNat 8 s.acc.toNat := by
        apply BitVec.eq_of_toNat_eq; simp
      rwa [hb] at this
    · rw [ha]; simp only [hshift]; rw [Nat.div_div_eq_div_mul, Nat.pow_succ']

/-- R150: within its preconditions `PackBits` answers: the code's bits follow the waiting ones (R62), each 8 bits
complete a byte, and the rest waits in `ACC`. -/
theorem packBits_stored {c w : Nat} {s : State} (h : s.blkcnt.toNat ≤ 253) (hn : s.nacc.toNat ≤ 7)
    (ha : s.acc.toNat < 2 ^ s.nacc.toNat) (hw : w ≤ 12) (hc : c < 2 ^ w) :
    ∃ t, packBits c w s = .next t ∧
      Stored s t (lowBytes ((s.nacc.toNat + w) / 8) (s.acc.toNat + c * 2 ^ s.nacc.toNat)) ∧
      t.acc.toNat = (s.acc.toNat + c * 2 ^ s.nacc.toNat) / 256 ^ ((s.nacc.toNat + w) / 8) ∧
      t.nacc.toNat = (s.nacc.toNat + w) % 8 := by
  have hv : s.acc.toNat + c * 2 ^ s.nacc.toNat < 2 ^ (s.nacc.toNat + w) := by
    have : (c + 1) * 2 ^ s.nacc.toNat ≤ 2 ^ w * 2 ^ s.nacc.toNat := Nat.mul_le_mul_right _ hc
    rw [Nat.pow_add, Nat.mul_comm (2 ^ s.nacc.toNat)]
    rw [Nat.add_mul] at this
    omega
  have hv19 : s.acc.toNat + c * 2 ^ s.nacc.toNat < 2 ^ 19 :=
    Nat.lt_of_lt_of_le hv (Nat.pow_le_pow_right (by decide) (by omega))
  have e1 : (BitVec.ofNat 5 (s.nacc.toNat + w)).toNat = s.nacc.toNat + w := by rw [BitVec.toNat_ofNat]; omega
  have e2 : (BitVec.ofNat 19 (s.acc.toNat + c * 2 ^ s.nacc.toNat)).toNat = s.acc.toNat + c * 2 ^ s.nacc.toNat := by
    rw [BitVec.toNat_ofNat, Nat.mod_eq_of_lt hv19]
  have hp : packBits c w s = packLoop ((s.nacc.toNat + w) / 8) { s with
      acc := BitVec.ofNat 19 (s.acc.toNat + c * 2 ^ s.nacc.toNat), nacc := BitVec.ofNat 5 (s.nacc.toNat + w) } := by
    unfold packBits
    simp only [Nat.shiftLeft_eq, Config.accBits]
    rw [if_pos ⟨hv19, by omega⟩]
  have hmid : Stored s { s with
      acc := BitVec.ofNat 19 (s.acc.toNat + c * 2 ^ s.nacc.toNat), nacc := BitVec.ofNat 5 (s.nacc.toNat + w) } [] :=
    .refl h rfl rfl rfl rfl
  obtain ⟨t, ht, hst, hta⟩ := packLoop_stored hmid.count_le (by simp only; rw [e1])
  simp only [e2] at hst hta
  refine ⟨t, by rw [hp]; exact ht, by simpa using hmid.trans hst, hta, ?_⟩
  exact (packBits_next (by rw [hp]; exact ht)).2.2

end Sys2Proof.Machine
end

