-- ==== Sys2Proof/Laws/Commands.lean ====
section
/-! SUPPORT. Laws/Commands.lean: what the code writer and each command can do: one inversion lemma each
(40_dictionary_builder.md, 41_code_writer.md). -/

namespace Sys2Proof.Machine

open Reference

theorem pixelInPalette_iff {d : DepthField} {p : Pixel} : pixelInPalette d p = true ↔ p.toNat < 2 ^ d.toNat :=
  decide_eq_true_iff

/-- Every field outside the packer, at once. -/
theorem OnlyPackerChanged.fields {s t : State} (h : OnlyPackerChanged s t) :
    t.phase = s.phase ∧ t.errcode = s.errcode ∧ t.depth = s.depth ∧ t.havePrefix = s.havePrefix ∧
      t.prefixCode = s.prefixCode ∧ t.width = s.width ∧ t.nextCode = s.nextCode ∧ t.dict = s.dict ∧
      t.taken = s.taken ∧ t.input = s.input ∧ t.emitMcs = s.emitMcs ∧ t.resets = s.resets := by
  unfold OnlyPackerChanged at h
  rw [h]
  simp

theorem packBits_only {c w : Nat} {s t : State} (h : packBits c w s = .next t) : OnlyPackerChanged s t :=
  (packBits_next h).1

/-- `widthUpdate` after packing sees the same `WIDTH` and `NEXT_CODE` as before it. -/
theorem OnlyPackerChanged.widthUpdate_width {s t : State} (h : OnlyPackerChanged s t) :
    (widthUpdate t).width = (widthUpdate s).width := by
  obtain ⟨-, -, -, -, -, hw, hn, -⟩ := h.fields
  simp only [Machine.widthUpdate_width, hw, hn]

theorem emitCode_next {c : Code} {s t : State} (h : emitCode c s = .next t) :
    ∃ u, packBits c.toNat s.width.toNat s = .next u ∧ t = widthUpdate u := by
  obtain ⟨u, hu, ht⟩ := andThen_next_iff.1 h
  injection ht with ht
  exact ⟨u, hu, ht.symm⟩

/-- What `novelPair` answers, if it answers: case C1 or case C2 of R113. -/
theorem novelPair_next {p : Pixel} {s t : State} (h : novelPair p s = .next t) :
    ∃ u, packBits s.prefixCode.toNat s.width.toNat s = .next u ∧
      ((s.nextCode.toNat < 4096 ∧
          t = setPrefix (literalCode p) (extendDict s.prefixCode p (widthUpdate u))) ∨
        (4096 ≤ s.nextCode.toNat ∧ ∃ v,
          packBits (clearCode s.depth) (widthUpdate s).width.toNat (widthUpdate u) = .next v ∧
            t = setPrefix (literalCode p) (freshTable v))) := by
  obtain ⟨x, hx, h⟩ := andThen_next_iff.1 h
  obtain ⟨u, hu, rfl⟩ := emitCode_next hx
  obtain ⟨y, hy, h⟩ := andThen_next_iff.1 h
  injection h with h
  have ho := packBits_only hu
  obtain ⟨-, -, hd, -, -, -, hn, -⟩ := ho.fields
  refine ⟨u, hu, ?_⟩
  simp only [widthUpdate_nextCode, hn, codeLimit, Config.maxBits] at hy
  by_cases hlt : s.nextCode.toNat < 2 ^ 12
  · rw [if_pos hlt] at hy
    injection hy with hy
    exact .inl ⟨hlt, by rw [← h, ← hy]⟩
  · rw [if_neg hlt] at hy
    obtain ⟨v, hv, hy⟩ := andThen_next_iff.1 hy
    injection hy with hy
    rw [widthUpdate_depth, hd, ho.widthUpdate_width] at hv
    exact .inr ⟨by omega, v, hv, by rw [← h, ← hy]⟩

/-- What `PIX p` answers, if it answers: R113's checks and cases. -/
theorem execPix_next {p : Pixel} {s t : State} (h : execPix p s = .next t) :
    (s.phase = .err ∧ t = s) ∨
    (s.phase ≠ .err ∧ s.phase ≠ .run ∧ t = raise .seq s) ∨
    (s.phase = .run ∧ 2 ^ s.depth.toNat ≤ p.toNat ∧ t = raise .range s) ∨
    (s.phase = .run ∧ p.toNat < 2 ^ s.depth.toNat ∧
      ((s.havePrefix = false ∧ t = { setPrefix (literalCode p) s with havePrefix := true }) ∨
       (s.havePrefix = true ∧ ∃ c, dictLookup s.prefixCode p s = some c ∧ t = setPrefix c s) ∨
       (s.havePrefix = true ∧ dictLookup s.prefixCode p s = none ∧ novelPair p s = .next t))) := by
  unfold execPix at h
  rcases whenLegal_cases [.run] s (if pixelInPalette s.depth p then consumePixel p s else .next (raise .range s))
    with ⟨h1, h2⟩ | ⟨-, h1, h2⟩ | ⟨h0, h1, h2⟩ <;> rw [h2] at h
  · injection h with h; exact .inl ⟨h1, h.symm⟩
  · have h1 : s.phase = .run := by simpa using h1
    by_cases hp : pixelInPalette s.depth p = true
    · rw [if_pos hp] at h
      have hp := pixelInPalette_iff.1 hp
      refine .inr (.inr (.inr ⟨h1, hp, ?_⟩))
      unfold consumePixel at h
      cases hh : s.havePrefix
      · rw [hh] at h; injection h with h; exact .inl ⟨rfl, h.symm⟩
      · rw [hh, if_pos rfl] at h
        cases hl : dictLookup s.prefixCode p s
        · rw [hl] at h; exact .inr (.inr ⟨rfl, rfl, h⟩)
        · rw [hl] at h; injection h with h; exact .inr (.inl ⟨rfl, _, rfl, h.symm⟩)
    · rw [if_neg hp] at h
      have hp := Nat.le_of_not_lt fun hlt => hp (pixelInPalette_iff.2 hlt)
      injection h with h
      exact .inr (.inr (.inl ⟨h1, hp, h.symm⟩))
  · injection h with h
    exact .inr (.inl ⟨h0, by simpa using h1, h.symm⟩)

/-- What `FINISH` answers, if it answers: R116's checks, or every operation of its list in turn. -/
theorem execFinish_next {s t : State} (h : execFinish s = .next t) :
    (s.phase = .err ∧ t = s) ∨
    (s.phase ≠ .err ∧ s.phase ≠ .run ∧ t = raise .seq s) ∨
    (s.phase = .run ∧ s.havePrefix = false ∧ t = raise .empty s) ∨
    (s.phase = .run ∧ s.havePrefix = true ∧ ∃ u v x y,
      packBits s.prefixCode.toNat s.width.toNat s = .next u ∧
      packBits (eoiCode s.depth) (widthUpdate s).width.toNat (widthUpdate u) = .next v ∧
      drain v = .next x ∧ flushBlock x = .next y ∧ t = { terminate y with havePrefix := false, phase := .done }) := by
  unfold execFinish at h
  rcases whenLegal_cases [.run] s (if s.havePrefix then finishRaster s else .next (raise .empty s))
    with ⟨h1, h2⟩ | ⟨-, h1, h2⟩ | ⟨h0, h1, h2⟩ <;> rw [h2] at h
  · injection h with h; exact .inl ⟨h1, h.symm⟩
  · have h1 : s.phase = .run := by simpa using h1
    cases hh : s.havePrefix
    · rw [hh] at h; injection h with h; exact .inr (.inr (.inl ⟨h1, rfl, h.symm⟩))
    · rw [hh, if_pos rfl] at h
      obtain ⟨a, ha, h⟩ := andThen_next_iff.1 h
      obtain ⟨u, hu, rfl⟩ := emitCode_next ha
      obtain ⟨v, hv, h⟩ := andThen_next_iff.1 h
      obtain ⟨x, hx, h⟩ := andThen_next_iff.1 h
      obtain ⟨y, hy, h⟩ := andThen_next_iff.1 h
      injection h with h
      unfold emitEOI at hv
      have ho := packBits_only hu
      rw [widthUpdate_depth, ho.fields.2.2.1, ho.widthUpdate_width] at hv
      exact .inr (.inr (.inr ⟨h1, rfl, u, v, x, y, hu, hv, hx, hy, h.symm⟩))
  · injection h with h
    exact .inr (.inl ⟨h0, by simpa using h1, h.symm⟩)

/-- What `START d` answers, if it answers: R110's checks, or the initialised state after the first `CLEAR`. -/
theorem execStart_next {d : DepthField} {s t : State} (h : execStart d s = .next t) :
    (s.phase = .err ∧ t = s) ∨
    (s.phase = .run ∧ t = raise .seq s) ∨
    ((s.phase = .idle ∨ s.phase = .done) ∧ (d.toNat < 2 ∨ 8 < d.toNat) ∧ t = raise .depth s) ∨
    ((s.phase = .idle ∨ s.phase = .done) ∧ 2 ≤ d.toNat ∧ d.toNat ≤ 8 ∧
      packBits (2 ^ d.toNat) (d.toNat + 1) (emitMinCodeSize (startRegisters d s)) = .next t) := by
  unfold execStart at h
  rcases whenLegal_cases [.idle, .done] s (if depthLegal d then startRaster d s else .next (raise .depth s))
    with ⟨h1, h2⟩ | ⟨-, h1, h2⟩ | ⟨h0, h1, h2⟩ <;> rw [h2] at h
  · injection h with h; exact .inl ⟨h1, h.symm⟩
  · have h1 : s.phase = .idle ∨ s.phase = .done := by simpa using h1
    by_cases hd : depthLegal d = true
    · rw [if_pos hd] at h
      have hd : 2 ≤ d.toNat ∧ d.toNat ≤ 8 := by simpa [depthLegal] using hd
      exact .inr (.inr (.inr ⟨h1, hd.1, hd.2, h⟩))
    · rw [if_neg hd] at h
      have hd : ¬ (2 ≤ d.toNat ∧ d.toNat ≤ 8) := by simpa [depthLegal] using hd
      injection h with h
      exact .inr (.inr (.inl ⟨h1, by omega, h.symm⟩))
  · injection h with h
    have : s.phase = .run := by
      cases hp : s.phase <;> simp_all
    exact .inr (.inl ⟨this, h.symm⟩)

/-- What an illegal word does. -/
theorem execIllegal_next (w : CmdWord) {s t : State} (h : execIllegal w s = .next t) :
    (s.phase = .err ∧ t = s) ∨ (s.phase ≠ .err ∧ t = raise .cmd s) := by
  unfold execIllegal at h
  split at h <;> injection h with h
  · exact .inl ⟨‹_›, h.symm⟩
  · exact .inr ⟨‹_›, h.symm⟩

/-! ## What the last operations of a raster can do -/

theorem drain_next {s t : State} (hn : s.nacc.toNat ≤ 8) (h : drain s = .next t) :
    StoredAtMost s t ((s.nacc.toNat + 7) / 8) := by
    unfold drain at h
    split at h
    · obtain ⟨u, hu, h⟩ := andThen_next_iff.1 h
      injection h with h
      subst h
      rw [show (s.nacc.toNat + 7) / 8 = 1 by omega]
      exact (putByte_storedAtMost hu).congr rfl rfl rfl
    · injection h with h
      subst h
      rw [show (s.nacc.toNat + 7) / 8 = 0 by omega]
      exact .refl rfl rfl rfl

theorem drain_only {s t : State} (h : drain s = .next t) : OnlyPackerChanged s t := by
  unfold drain at h
  split at h
  · obtain ⟨u, hu, h⟩ := andThen_next_iff.1 h
    injection h with h
    subst h
    unfold OnlyPackerChanged
    rw [putByte_only hu]
  · injection h with h
    subst h; rfl

theorem flushBlock_only {s t : State} (h : flushBlock s = .next t) : OnlyPackerChanged s t := by
  rw [flushBlock_eq (flushBlock_bound h)] at h
  injection h with h
  rw [← h]; rfl

/-- R153: within its preconditions `Drain` answers, and writes the waiting bits as one zero-padded byte, if there are
any. -/
theorem drain_stored {s : State} (h : s.blkcnt.toNat ≤ 253) (hn : s.nacc.toNat ≤ 7) (ha : s.acc.toNat < 2 ^ s.nacc.toNat) :
    ∃ t, drain s = .next t ∧ Stored s t (lowBytes ((s.nacc.toNat + 7) / 8) s.acc.toNat) ∧ t.acc = 0 ∧ t.nacc = 0 := by
  unfold drain
  by_cases h0 : 0 < s.nacc.toNat
  · obtain ⟨u, hu, hs⟩ := putByte_stored (s.acc.extractLsb' 0 8) h
    rw [if_pos h0, hu]
    refine ⟨_, rfl, ?_, rfl, rfl⟩
    have hmid : Stored u { u with acc := 0, nacc := 0 } [] := .refl hs.count_le rfl rfl rfl rfl
    have hb : s.acc.extractLsb' 0 8 = BitVec.ofNat 8 s.acc.toNat := by apply BitVec.eq_of_toNat_eq; simp
    have := hs.trans hmid
    rwa [List.append_nil, hb, show [BitVec.ofNat 8 s.acc.toNat] = lowBytes 1 s.acc.toNat by rw [lowBytes_succ]; rfl,
      show 1 = (s.nacc.toNat + 7) / 8 by omega] at this
  · rw [if_neg h0]
    have hz : s.nacc.toNat = 0 := by omega
    rw [hz] at ha
    refine ⟨s, rfl, ?_, BitVec.eq_of_toNat_eq (by simp; omega), BitVec.eq_of_toNat_eq (by simpa using hz)⟩
    rw [hz]
    exact .refl h rfl rfl rfl rfl

/-! ## What a performed command leaves alone -/

/-- A novel pair leaves the control state and the world alone. -/
theorem novelPair_fields {p : Pixel} {s t : State} (h : novelPair p s = .next t) :
    t.phase = s.phase ∧ t.errcode = s.errcode ∧ t.depth = s.depth ∧ t.havePrefix = s.havePrefix ∧
      t.taken = s.taken ∧ t.input = s.input ∧ t.emitMcs = s.emitMcs ∧ t.resets = s.resets := by
  obtain ⟨u, hu, ⟨-, rfl⟩ | ⟨-, v, hv, rfl⟩⟩ := novelPair_next h
  · have := (packBits_only hu).fields; simp_all
  · have := (packBits_only hu).fields; have := (packBits_only hv).fields; simp_all

/-- The fields outside the packer after a performed `START d`. -/
theorem startRaster_fields {d : DepthField} {s t : State}
    (h : packBits (2 ^ d.toNat) (d.toNat + 1) (emitMinCodeSize (startRegisters d s)) = .next t) :
    t.phase = .run ∧ t.errcode = s.errcode ∧ t.depth = d ∧ t.havePrefix = false ∧ t.prefixCode = 0 ∧ t.dict = [] ∧
      t.nextCode = BitVec.ofNat 13 (firstFree d) ∧ t.width = BitVec.ofNat 4 (initWidth d) ∧
      t.taken = s.taken ∧ t.input = s.input ∧ t.emitMcs = s.emitMcs ∧ t.resets = s.resets := by
  have := (packBits_only h).fields; simp_all

/-- The fields outside the packer after the operations of a performed `FINISH`. -/
theorem finishRaster_fields {s u v x y : State} (hu : packBits s.prefixCode.toNat s.width.toNat s = .next u)
    (hv : packBits (eoiCode s.depth) (widthUpdate s).width.toNat (widthUpdate u) = .next v)
    (hx : drain v = .next x) (hy : flushBlock x = .next y) :
    y.errcode = s.errcode ∧ y.depth = s.depth ∧ y.prefixCode = s.prefixCode ∧ y.width = (widthUpdate s).width ∧
      y.nextCode = s.nextCode ∧ y.dict = s.dict ∧ y.taken = s.taken ∧ y.input = s.input ∧
      y.emitMcs = s.emitMcs ∧ y.resets = s.resets := by
  have h1 := (packBits_only hu).fields; have h2 := (packBits_only hv).fields
  have h3 := (drain_only hx).fields; have h4 := (flushBlock_only hy).fields
  have h5 := (packBits_only hu).widthUpdate_width
  simp_all

/-! ## One step -/

/-- What a step does, by the event at the ports. -/
theorem step_next {s t : State} (h : step s = .next t) :
    (s.input = [] ∧ t = s) ∨
    (∃ w rest, s.input = .accept w :: rest ∧ exec (decodeWord w) { s with input := rest } = .next t) ∨
    (∃ w rest, s.input = .wait w :: rest ∧ t = { s with input := rest }) ∨
    (∃ rest, s.input = .take :: rest ∧ t = consumerTake { s with input := rest }) ∨
    (∃ offered rest, s.input = .rst offered :: rest ∧ t = applyReset { s with input := rest }) := by
  unfold step nextEvent at h
  rcases hi : s.input with _ | ⟨e, rest⟩
  · rw [hi] at h; injection h with h; exact .inl ⟨rfl, h.symm⟩
  · rw [hi] at h
    cases e with
    | accept w => exact .inr (.inl ⟨w, rest, rfl, h⟩)
    | wait w => injection h with h; exact .inr (.inr (.inl ⟨w, rest, rfl, h.symm⟩))
    | take => injection h with h; exact .inr (.inr (.inr (.inl ⟨rest, rfl, h.symm⟩)))
    | rst o => injection h with h; exact .inr (.inr (.inr (.inr ⟨o, rest, rfl, h.symm⟩)))

/-- A step on an accepted word. -/
theorem step_accept {s : State} {w : CmdWord} {rest : List PortEvent} (h : s.input = .accept w :: rest) :
    step s = exec (decodeWord w) { s with input := rest } := by
  unfold step nextEvent; rw [h]

end Sys2Proof.Machine
end

