-- ==== Sys2Proof/Laws/Invariants.lean ====
section
/-! SUPPORT. Laws/Invariants.lean: what each operation does to the invariants of 10_state.md R37. -/

namespace Sys2Proof.Machine

open Reference

/-! ## The packer between two commands -/

/-- R37 items 9 and 10. -/
structure PackerReady (s : State) : Prop where
  count_le : s.blkcnt.toNat ≤ 253
  nacc_le : s.nacc.toNat ≤ 7
  acc_lt : s.acc.toNat < 2 ^ s.nacc.toNat

theorem RunInv.packer {s : State} (h : RunInv s) : PackerReady s :=
  ⟨h.blkcnt_range, h.acc_bits.1, h.acc_bits.2⟩

theorem PackerReady.congr {s t : State} (h : PackerReady s) (hc : t.blkcnt = s.blkcnt) (ha : t.acc = s.acc)
    (hn : t.nacc = s.nacc) : PackerReady t :=
  ⟨by rw [hc]; exact h.count_le, by rw [hn]; exact h.nacc_le, by rw [ha, hn]; exact h.acc_lt⟩

/-- What remains of `total` bits after whole bytes have left fits in the bits that remain. -/
theorem remainder_lt {v total : Nat} (h : v < 2 ^ total) : v / 256 ^ (total / 8) < 2 ^ (total % 8) := by
  rw [Nat.div_lt_iff_lt_mul (by positivity), show (256 : Nat) = 2 ^ 8 by rfl, ← Nat.pow_mul, ← Nat.pow_add]
  rwa [Nat.mod_add_div]

theorem appended_lt {a c n w : Nat} (ha : a < 2 ^ n) (hc : c < 2 ^ w) : a + c * 2 ^ n < 2 ^ (n + w) := by
  have : (c + 1) * 2 ^ n ≤ 2 ^ w * 2 ^ n := Nat.mul_le_mul_right _ hc
  rw [Nat.pow_add, Nat.mul_comm (2 ^ n)]
  rw [Nat.add_mul] at this
  omega

/-- R150: within its preconditions `PackBits` answers, and its postconditions hold. -/
theorem packBits_ready {c w : Nat} {s : State} (h : PackerReady s) (hw : w ≤ 12) (hc : c < 2 ^ w) :
    ∃ t, packBits c w s = .next t ∧ OnlyPackerChanged s t ∧ PackerReady t := by
  obtain ⟨t, ht, hs, ha, hn⟩ := packBits_stored h.count_le h.nacc_le h.acc_lt hw hc
  refine ⟨t, ht, packBits_only ht, hs.count_le, by omega, ?_⟩
  rw [ha, hn]
  exact remainder_lt (appended_lt h.acc_lt hc)

/-! ## Quantities that depend on `DEPTH` -/

theorem depthLegal_iff {d : DepthField} : depthLegal d = true ↔ 2 ≤ d.toNat ∧ d.toNat ≤ 8 := by
  simp [depthLegal]

theorem clear_bounds {n : Nat} (h : 2 ≤ n ∧ n ≤ 8) : 4 ≤ 2 ^ n ∧ 2 ^ n ≤ 256 ∧ 2 ^ (n + 1) = 2 * 2 ^ n :=
  ⟨Nat.pow_le_pow_right (n := 2) (by decide) h.1, Nat.pow_le_pow_right (n := 2) (by decide) h.2, by
    rw [Nat.pow_succ]; omega⟩

theorem RunInv.depth_range {s : State} (h : RunInv s) : 2 ≤ s.depth.toNat ∧ s.depth.toNat ≤ 8 :=
  depthLegal_iff.1 h.depth_legal

theorem RunInv.prefix_fits {s : State} (h : RunInv s) (hh : s.havePrefix = true) :
    s.prefixCode.toNat < 2 ^ s.width.toNat := Nat.lt_of_lt_of_le (h.prefix_known hh).1 h.nextCode_fits

theorem literalCode_toNat (p : Pixel) : (literalCode p).toNat = p.toNat := by
  unfold literalCode
  rw [BitVec.toNat_setWidth, Nat.mod_eq_of_lt (Nat.lt_of_lt_of_le p.isLt (by decide))]

/-- R132: the width update, in numbers: `WIDTH` is at most 12, and so never wraps. -/
theorem widthUpdate_toNat {s : State} (h : s.width.toNat ≤ 12) :
    (widthUpdate s).width.toNat =
      if s.width.toNat < 12 ∧ 2 ^ s.width.toNat ≤ s.nextCode.toNat then s.width.toNat + 1 else s.width.toNat := by
  rw [widthUpdate_width]
  simp only [Config.maxBits]
  split
  · rw [BitVec.toNat_add]; simp; omega
  · rfl

theorem widthUpdate_le {s : State} (h : s.width.toNat ≤ 12) : (widthUpdate s).width.toNat ≤ 12 := by
  rw [widthUpdate_toNat h]; split <;> omega

theorem widthUpdate_ge {s : State} (h : s.width.toNat ≤ 12) : s.width.toNat ≤ (widthUpdate s).width.toNat := by
  rw [widthUpdate_toNat h]; split <;> omega

theorem RunInv.width_le {s : State} (h : RunInv s) : s.width.toNat ≤ 12 := h.width_range.2

/-- R132: when the width does not grow to 12 codes wide, one step of it always suffices: `NEXT_CODE` stays below the
updated width's range until the code space is full. -/
theorem RunInv.updated_width {s : State} (h : RunInv s) (hn : s.nextCode.toNat < 4096) :
    s.nextCode.toNat < 2 ^ (widthUpdate s).width.toNat := by
  rw [widthUpdate_toNat h.width_le]
  have h6 := h.nextCode_fits
  split
  · have := Nat.pow_succ 2 s.width.toNat
    have : 0 < 2 ^ s.width.toNat := by positivity
    omega
  · by_cases e : s.width.toNat = 12
    · rw [e]; omega
    · have := h.width_le; omega

/-- R134: at a full code space the width is 12. -/
theorem RunInv.width_of_full {s : State} (h : RunInv s) (hn : 4096 ≤ s.nextCode.toNat) : s.width.toNat = 12 := by
  have h5 := h.width_le
  have h6 := h.nextCode_fits
  have : ¬ s.width.toNat ≤ 11 := fun hle => by
    have := Nat.pow_le_pow_right (n := 2) (by decide) hle
    omega
  omega

theorem RunInv.widthUpdate_of_full {s : State} (h : RunInv s) (hn : 4096 ≤ s.nextCode.toNat) :
    (widthUpdate s).width.toNat = 12 := by
  have := h.width_of_full hn
  rw [widthUpdate_toNat h.width_le, if_neg (by omega), this]

/-- R136: the end code fits the updated width. -/
theorem RunInv.eoi_fits {s : State} (h : RunInv s) : eoiCode s.depth < 2 ^ (widthUpdate s).width.toNat := by
  obtain ⟨h4, -, h2⟩ := clear_bounds h.depth_range
  have hge := Nat.le_trans h.width_range.1 (widthUpdate_ge h.width_le)
  have := Nat.pow_le_pow_right (n := 2) (by decide) hge
  simp only [initWidth, eoiCode] at *
  omega

/-- R134: the clear code fits 12 bits. -/
theorem RunInv.clear_fits {s : State} (h : RunInv s) : clearCode s.depth < 2 ^ 12 := by
  obtain ⟨-, h8, -⟩ := clear_bounds h.depth_range
  simp only [clearCode]; omega

/-! ## R37 after each case of a command -/

/-- A fresh table (after `START`'s writes, and after a later `CLEAR`) satisfies R37. -/
theorem RunInv.of_fresh {s t : State} (hd : 2 ≤ s.depth.toNat ∧ s.depth.toNat ≤ 8) (hp : PackerReady t)
    (hdepth : t.depth = s.depth) (hdict : t.dict = [])
    (hnext : t.nextCode = BitVec.ofNat 13 (firstFree s.depth)) (hwidth : t.width = BitVec.ofNat 4 (initWidth s.depth))
    (hpre : t.havePrefix = true → t.prefixCode.toNat < 2 ^ s.depth.toNat) (herr : t.errcode = .none) : RunInv t := by
  obtain ⟨h4, h8, h2⟩ := clear_bounds hd
  have en : t.nextCode.toNat = 2 ^ s.depth.toNat + 2 := by
    rw [hnext, BitVec.toNat_ofNat, Machine.firstFree, Nat.mod_eq_of_lt (by omega)]
  have ew : t.width.toNat = s.depth.toNat + 1 := by
    rw [hwidth, BitVec.toNat_ofNat, initWidth, Nat.mod_eq_of_lt (by omega)]
  have hl : ∀ q p, dictLookup q p t = none := dictLookup_empty hdict
  refine
    { depth_legal := by rw [hdepth]; exact depthLegal_iff.2 hd
      nextCode_range := by rw [hdepth, en]; simp [Machine.firstFree, codeLimit, Config.maxBits]; omega
      dict_injective := by simp [hl]
      dict_values := fun c => by rw [hdepth, en]; simp [hl, Machine.firstFree]
      dict_size := by rw [hdict, hdepth, en]; simp [Machine.firstFree]
      dict_keys := by simp [hl]
      width_range := by rw [hdepth, ew]; simp [initWidth, Config.maxBits]; omega
      nextCode_fits := by rw [en, ew]; omega
      width_least := fun hlt => by rw [hdepth, ew] at hlt; simp [initWidth] at hlt
      prefix_known := fun hh => by
        have := hpre hh
        rw [hdepth, en, clearCode, eoiCode]; omega
      acc_bits := ⟨hp.nacc_le, hp.acc_lt⟩
      blkcnt_range := hp.count_le
      no_error := herr }

/-- Moving the prefix (cases A and B) keeps R37. -/
theorem RunInv.move_prefix {s t : State} (h : RunInv s) (e : ∃ c b, t = { setPrefix c s with havePrefix := b })
    (hk : t.prefixCode.toNat < s.nextCode.toNat ∧ t.prefixCode.toNat ≠ clearCode s.depth ∧
      t.prefixCode.toNat ≠ eoiCode s.depth) : RunInv t := by
  obtain ⟨c, b, rfl⟩ := e
  exact
    { depth_legal := h.depth_legal
      nextCode_range := h.nextCode_range
      dict_injective := h.dict_injective
      dict_values := h.dict_values
      dict_size := h.dict_size
      dict_keys := h.dict_keys
      width_range := h.width_range
      nextCode_fits := h.nextCode_fits
      width_least := h.width_least
      prefix_known := fun _ => hk
      acc_bits := h.acc_bits
      blkcnt_range := h.blkcnt_range
      no_error := h.no_error }

theorem RunInv.literal_known {s : State} (h : RunInv s) {p : Pixel} (hp : p.toNat < 2 ^ s.depth.toNat) :
    (literalCode p).toNat < s.nextCode.toNat ∧ (literalCode p).toNat ≠ clearCode s.depth ∧
      (literalCode p).toNat ≠ eoiCode s.depth := by
  have := h.nextCode_range.1
  simp only [literalCode_toNat, clearCode, eoiCode, Machine.firstFree] at *
  omega

theorem RunInv.entry_known {s : State} (h : RunInv s) {q : Code} {p : Pixel} {c : Code}
    (hc : dictLookup q p s = some c) :
    c.toNat < s.nextCode.toNat ∧ c.toNat ≠ clearCode s.depth ∧ c.toNat ≠ eoiCode s.depth := by
  have := (h.dict_values c).1 ⟨q, p, hc⟩
  simp only [clearCode, eoiCode, Machine.firstFree] at *
  omega

theorem nextCode_setWidth {s : State} (hn : s.nextCode.toNat < 4096) :
    (s.nextCode.setWidth 12).toNat = s.nextCode.toNat := by
  rw [BitVec.toNat_setWidth, Nat.mod_eq_of_lt hn]

theorem nextCode_succ {s : State} (hn : s.nextCode.toNat < 4096) : (s.nextCode + 1).toNat = s.nextCode.toNat + 1 := by
  rw [BitVec.toNat_add]; simp; omega

/-- Entering the pair (case C1) keeps R37. -/
theorem RunInv.insert {s u : State} {p : Pixel} (h : RunInv s) (hh : s.havePrefix = true)
    (hp : p.toNat < 2 ^ s.depth.toNat) (hl : dictLookup s.prefixCode p s = none) (hn : s.nextCode.toNat < 4096)
    (hu : OnlyPackerChanged s u) (hr : PackerReady u) :
    RunInv (setPrefix (literalCode p) (extendDict s.prefixCode p (widthUpdate u))) := by
  obtain ⟨-, e2, e3, e4, -, e6, e7, e8, -⟩ := hu.fields
  have hsame : ∀ q' p', dictLookup q' p' (setPrefix (literalCode p) (extendDict s.prefixCode p (widthUpdate u))) =
      if q' = s.prefixCode ∧ p' = p then some (s.nextCode.setWidth 12) else dictLookup q' p' s :=
    dictLookup_put (by simp [e7, e8])
  have ec := nextCode_setWidth hn
  have es := nextCode_succ hn
  have hw := hu.widthUpdate_width
  have hfit := h.updated_width hn
  have hk := h.prefix_known hh
  have hff := h.nextCode_range.1
  have hlit := h.literal_known hp
  refine
    { depth_legal := by simp [e3, h.depth_legal]
      nextCode_range := by simp only [setPrefix_depth, extendDict_depth, widthUpdate_depth, setPrefix_nextCode, extendDict_nextCode, widthUpdate_nextCode,
        e3, e7, es, codeLimit, Config.maxBits]; omega
      dict_injective := ?_
      dict_values := ?_
      dict_size := ?_
      dict_keys := ?_
      width_range := ?_
      nextCode_fits := ?_
      width_least := ?_
      prefix_known := ?_
      acc_bits := by simpa using ⟨hr.nacc_le, hr.acc_lt⟩
      blkcnt_range := by simpa using hr.count_le
      no_error := by simp [e2, h.no_error] }
  · have hfresh : ∀ q p c, dictLookup q p s = some c → c ≠ s.nextCode.setWidth 12 := fun q p c hc e => by
      have := (h.dict_values c).1 ⟨q, p, hc⟩
      rw [e, ec] at this; omega
    intro q p q' p' c h1 h2
    rw [hsame] at h1 h2
    split at h1 <;> split at h2
    · rename_i a b; exact ⟨a.1.trans b.1.symm, a.2.trans b.2.symm⟩
    · injection h1 with h1; exact absurd h1.symm (hfresh _ _ _ h2)
    · injection h2 with h2; exact absurd h2.symm (hfresh _ _ _ h1)
    · exact h.dict_injective _ _ _ _ _ h1 h2
  · intro c
    simp only [setPrefix_depth, extendDict_depth, widthUpdate_depth, setPrefix_nextCode, extendDict_nextCode, widthUpdate_nextCode, e3, e7, es]
    constructor
    · rintro ⟨q, p', hc⟩
      rw [hsame] at hc
      split at hc
      · injection hc with hc; rw [← hc, ec]; omega
      · have := (h.dict_values c).1 ⟨q, p', hc⟩; omega
    · intro hc
      by_cases e : c.toNat = s.nextCode.toNat
      · refine ⟨s.prefixCode, p, ?_⟩
        rw [hsame, if_pos ⟨rfl, rfl⟩]
        exact congrArg some (BitVec.eq_of_toNat_eq (ec.trans e.symm))
      · obtain ⟨q, p', hc'⟩ := (h.dict_values c).2 (by omega)
        refine ⟨q, p', ?_⟩
        rw [hsame, if_neg, hc']
        rintro ⟨rfl, rfl⟩
        rw [hl] at hc'; simp at hc'
  · simp only [setPrefix_dict, extendDict_dict, setPrefix_depth, extendDict_depth, widthUpdate_depth, widthUpdate_dict, setPrefix_nextCode, extendDict_nextCode,
      widthUpdate_nextCode, e3, e7, e8, es]
    rw [Assoc.length_put_of_absent _ hl, ← h.dict_size]; omega
  · intro q p' c hc
    simp only [setPrefix_depth, extendDict_depth, widthUpdate_depth, e3]
    rw [hsame] at hc
    split at hc
    · rename_i a
      injection hc with hc
      rw [a.1, a.2, ← hc, ec]
      refine ⟨hp, ?_⟩
      simp only [clearCode, eoiCode, Machine.firstFree] at *
      omega
    · exact h.dict_keys _ _ _ hc
  · simp only [setPrefix_depth, extendDict_depth, widthUpdate_depth, setPrefix_width, extendDict_width, hw, e3]
    exact ⟨Nat.le_trans h.width_range.1 (widthUpdate_ge h.width_le), widthUpdate_le h.width_le⟩
  · simp only [setPrefix_nextCode, extendDict_nextCode, widthUpdate_nextCode, setPrefix_width, extendDict_width, hw, e7, es]
    exact hfit
  · simp only [setPrefix_depth, extendDict_depth, widthUpdate_depth, setPrefix_nextCode, extendDict_nextCode, widthUpdate_nextCode, setPrefix_width, extendDict_width, hw, e3,
      e7, es]
    rw [widthUpdate_toNat h.width_le]
    split
    · intro _
      have : s.width.toNat + 1 - 1 = s.width.toNat := by omega
      rw [this]; omega
    · intro hlt
      have := h.width_least hlt
      omega
  · intro _
    simp only [setPrefix_prefixCode, setPrefix_depth, extendDict_depth, widthUpdate_depth, setPrefix_nextCode, extendDict_nextCode, widthUpdate_nextCode, e3, e7, es]
    omega

end Sys2Proof.Machine
end

