-- ==== Sys2Proof/Laws/PerInstr.lean ====
section
/-! SUPPORT. Laws/PerInstr.lean: statements made of each instruction as syntax, one lemma per constructor of `Instr`. -/

namespace Sys2Proof.Laws

/-- The row of the opcode table whose words an instruction's encoding must belong to; none for `ILLEGAL`, whose words
belong to no row (R81 to R83, R86). -/
def EncodeRow.row : Instr → Option OpcodeRow
  | .start _ => some .start
  | .pix _ => some .pix
  | .finish => some .finish
  | .illegal _ => none

/-- A well-formed instruction's word belongs to its own row of the opcode table and to no other. -/
def EncodeRow.Statement (i : Instr) : Prop :=
  i.wf = true → ∀ r ∈ commandRows, r.has (encode i) = true ↔ EncodeRow.row i = some r

theorem EncodeRow.start (d : DepthField) : EncodeRow.Statement (.start d) := by
  intro _ r hr
  fin_cases hr <;> revert d <;> decide

theorem EncodeRow.pix (p : Pixel) : EncodeRow.Statement (.pix p) := by
  intro _ r hr
  fin_cases hr <;> revert p <;> decide

theorem EncodeRow.finish : EncodeRow.Statement .finish := by
  intro _ r hr
  fin_cases hr <;> decide

theorem EncodeRow.illegal (w : CmdWord) : EncodeRow.Statement (.illegal w) := by
  intro h r hr
  have := List.all_eq_true.1 h r hr
  simpa [encode, EncodeRow.row] using this

end Sys2Proof.Laws
end

