-- ==== Sys2Proof/Laws/Stream.lean ====
section
/-! SUPPORT. Laws/Stream.lean: the bit stream as one number: what a run of `PackBits` calls, a `Drain` and a
`FlushBlock` have done to the packer (42_bit_packer.md R155). -/

namespace Sys2Proof.Machine

open Reference

/-- Packing one code after `total` bits of value `value`: bytes, waiting bits and their count are those of the longer
stream. -/
theorem stream_compose (value total c w : Nat) :
    lowBytes (total / 8) value ++
        lowBytes ((total % 8 + w) / 8) (value / 256 ^ (total / 8) + c * 2 ^ (total % 8)) =
      lowBytes ((total + w) / 8) (value + c * 2 ^ total) ∧
    (value / 256 ^ (total / 8) + c * 2 ^ (total % 8)) / 256 ^ ((total % 8 + w) / 8) =
      (value + c * 2 ^ total) / 256 ^ ((total + w) / 8) := by
  have e1 : (total + w) / 8 = total / 8 + (total % 8 + w) / 8 := by omega
  have e2 : value + c * 2 ^ total = value + 256 ^ (total / 8) * (c * 2 ^ (total % 8)) := by
    have : 2 ^ total = 256 ^ (total / 8) * 2 ^ (total % 8) := by
      rw [show (256 : Nat) = 2 ^ 8 by rfl, ← Nat.pow_mul, ← Nat.pow_add, Nat.div_add_mod]
    rw [this]; ring
  have e3 : (value + c * 2 ^ total) / 256 ^ (total / 8) = value / 256 ^ (total / 8) + c * 2 ^ (total % 8) := by
    rw [e2, Nat.add_mul_div_left _ _ (by positivity)]
  constructor
  · rw [e1, lowBytes_add, e3, e2, lowBytes_add_high]
  · rw [e1, Nat.pow_add, ← Nat.div_div_eq_div_mul, e3]

/-- `t` is `s` after a stream of `total` bits of value `value` (the bits waiting in `s` first) has gone to the packer. -/
structure Streamed (s t : State) (value total : Nat) : Prop where
  stored : Stored s t (lowBytes (total / 8) value)
  acc_eq : t.acc.toNat = value / 256 ^ (total / 8)
  nacc_eq : t.nacc.toNat = total % 8
  value_lt : value < 2 ^ total

theorem Streamed.start {s : State} (h : PackerReady s) : Streamed s s s.acc.toNat s.nacc.toNat := by
  have h0 : s.nacc.toNat / 8 = 0 := by have := h.nacc_le; omega
  refine ⟨?_, by rw [h0]; simp, by have := h.nacc_le; omega, h.acc_lt⟩
  rw [h0]; exact .refl h.count_le rfl rfl rfl rfl

theorem Streamed.ready {s t : State} {value total : Nat} (h : Streamed s t value total) : PackerReady t :=
  ⟨h.stored.count_le, by rw [h.nacc_eq]; omega, by rw [h.acc_eq, h.nacc_eq]; exact remainder_lt h.value_lt⟩

/-- An update outside the packer. -/
theorem Streamed.congr {s t u : State} {value total : Nat} (h : Streamed s t value total) (hb : u.blk = t.blk)
    (hc : u.blkcnt = t.blkcnt) (hr : u.resets = t.resets) (ho : u.out = t.out) (ha : u.acc = t.acc)
    (hn : u.nacc = t.nacc) : Streamed s u value total := by
  refine ⟨?_, by rw [ha]; exact h.acc_eq, by rw [hn]; exact h.nacc_eq, h.value_lt⟩
  have := h.stored.trans (.refl h.stored.count_le hb hc hr ho)
  rwa [List.append_nil] at this

/-- R150, R62: one more code. -/
theorem Streamed.pack {s t : State} {value total c w : Nat} (h : Streamed s t value total) (hw : w ≤ 12)
    (hc : c < 2 ^ w) : ∃ u, packBits c w t = .next u ∧ Streamed s u (value + c * 2 ^ total) (total + w) := by
  obtain ⟨u, hu, hs, ha, hn⟩ := packBits_stored h.ready.count_le h.ready.nacc_le h.ready.acc_lt hw hc
  obtain ⟨c1, c2⟩ := stream_compose value total c w
  rw [h.acc_eq, h.nacc_eq] at hs ha
  rw [h.nacc_eq] at hn
  refine ⟨u, hu, ?_, by rw [ha, c2], by rw [hn]; omega, appended_lt h.value_lt hc⟩
  rw [← c1]
  exact h.stored.trans hs

/-- R153, R152, R154: the end of a stream: everything that waits is framed, and the packer is empty. -/
theorem Streamed.finish {s t : State} {value total : Nat} (h : Streamed s t value total) :
    ∃ x y, drain t = .next x ∧ flushBlock x = .next y ∧
      (terminate y).out = s.out ++ frame (pendingBytes s ++ lowBytes ((total + 7) / 8) value) ∧
      y.acc = 0 ∧ y.nacc = 0 ∧ y.blkcnt = 0 := by
  obtain ⟨x, hx, hs, ha, hn⟩ := drain_stored h.ready.count_le h.ready.nacc_le h.ready.acc_lt
  have hall := h.stored.trans hs
  rw [h.acc_eq, h.nacc_eq, ← lowBytes_add, show total / 8 + (total % 8 + 7) / 8 = (total + 7) / 8 by omega] at hall
  refine ⟨x, _, hx, flushBlock_eq (by have := hs.count_le; omega), ?_, ha, hn, rfl⟩
  rw [terminate_out, hall.out_eq, hall.pending_eq]
  simp only [frame, List.append_assoc]

end Sys2Proof.Machine
end

