-- ==== Sys2Proof/Laws/Raster.lean ====
section
/-! SUPPORT. Laws/Raster.lean: the machine in the middle of a raster and the reference encoder, command by command
(40_dictionary_builder.md R110 to R117; Safety/Reference.lean). -/

namespace Sys2Proof.Reference

theorem bitCount_append (a b : List (Nat × Nat)) : bitCount (a ++ b) = bitCount a + bitCount b := by
  induction a with
  | nil => simp [bitCount]
  | cons x a ih => simp [bitCount, ih, Nat.add_assoc]

theorem bitValue_append (a b : List (Nat × Nat)) : bitValue (a ++ b) = bitValue a + 2 ^ bitCount a * bitValue b := by
  induction a with
  | nil => simp [bitValue, bitCount]
  | cons x a ih => simp only [List.cons_append, bitValue, ih, bitCount, Nat.pow_add]; ring

theorem bitCount_push (a : List (Nat × Nat)) (c w : Nat) : bitCount (a ++ [(c, w)]) = bitCount a + w := by
  simp [bitCount_append, bitCount]

theorem bitValue_push (a : List (Nat × Nat)) (c w : Nat) :
    bitValue (a ++ [(c, w)]) = bitValue a + c * 2 ^ bitCount a := by
  simp [bitValue_append, bitValue, Nat.mul_comm]

/-- R93 from R37 items 5 to 7: the width that is least for `n` codes is the closed formula's. -/
theorem codeWidth_of_bounds {d w k : Nat} (hk : 1 ≤ k) (hd : d + 1 ≤ w) (hw : w ≤ 12)
    (hfit : firstFree d + (k - 1) ≤ 2 ^ w) (hleast : d + 1 < w → 2 ^ (w - 1) < firstFree d + (k - 1)) (h2 : 2 ≤ d) :
    codeWidth d k = w := by
  have hp : 2 ^ (d + 1) = 2 * 2 ^ d := by rw [Nat.pow_succ]; omega
  have h4 : 4 ≤ 2 ^ d := Nat.pow_le_pow_right (n := 2) (by decide) h2
  unfold codeWidth firstFree at *
  split
  · by_contra hne
    have h7 := hleast (by omega)
    have : 2 ^ (d + 1) ≤ 2 ^ (w - 1) := Nat.pow_le_pow_right (by decide) (by omega)
    omega
  · rw [show 2 ^ d + 2 + k - 2 = 2 ^ d + 2 + (k - 1) - 1 by omega]
    have hle : Nat.size (2 ^ d + 2 + (k - 1) - 1) ≤ w := Nat.size_le.2 (by omega)
    by_cases he : d + 1 = w
    · omega
    · have := Nat.lt_size.2 (show 2 ^ (w - 1) ≤ 2 ^ d + 2 + (k - 1) - 1 by have := hleast (by omega); omega)
      omega

/-- R93, R136: the width update after the last data code gives the closed formula's width for the position after it. -/
theorem codeWidth_eoi {d w n next : Nat} (h2 : 2 ≤ d) (hd : d + 1 ≤ w) (hw : w ≤ 12) (hfit : firstFree d + n ≤ 2 ^ w)
    (hleast : d + 1 < w → 2 ^ (w - 1) < firstFree d + n) (hlim : firstFree d + n ≤ 4096)
    (hnext : next = firstFree d + n) :
    codeWidth d (n + 2) = if w < 12 ∧ 2 ^ w ≤ next then w + 1 else w := by
  subst hnext
  have hp : 2 ^ (d + 1) = 2 * 2 ^ d := by rw [Nat.pow_succ]; omega
  have hpw := Nat.pow_succ 2 w
  have hpos : 0 < 2 ^ w := by positivity
  split
  · rename_i h
    exact codeWidth_of_bounds (by omega) (by omega) (by omega) (by omega) (fun _ => by simp only [Nat.add_sub_cancel]; omega) h2
  · rename_i h
    by_cases h12 : w = 12
    · subst h12
      unfold codeWidth firstFree at *
      rw [if_neg (by omega)]
      have : ¬ Nat.size (2 ^ d + 2 + (n + 2) - 2) < 12 := fun hc => by
        have := Nat.size_le.1 (Nat.le_of_lt_succ hc : _ ≤ 11)
        by_cases hdd : d + 1 < 12
        · have := hleast hdd; omega
        · have : (2 : Nat) ^ 12 ≤ 2 ^ (d + 1) := Nat.pow_le_pow_right (by decide) (by omega)
          omega
      omega
    · exact codeWidth_of_bounds (by omega) hd hw (by omega) (fun hc => by have := hleast hc; omega) h2

end Sys2Proof.Reference

namespace Sys2Proof.Machine

open Reference

/-- R37 items 5 to 7: `WIDTH` is the closed formula's width for the next data code. -/
theorem RunInv.width_eq {s : State} (h : RunInv s) {d n : Nat} (hd : s.depth.toNat = d)
    (hn : s.nextCode.toNat = Reference.firstFree d + n) : s.width.toNat = codeWidth d (n + 1) := by
  have h5 := h.width_range
  have h6 := h.nextCode_fits
  have h7 := h.width_least
  simp only [initWidth, Config.maxBits, hd, hn] at h5 h6 h7
  exact (codeWidth_of_bounds (by omega) h5.1 h5.2 (by simpa using h6) (by simpa using h7) (hd ▸ h.depth_range.1)).symm

/-- The machine `t` is in the middle of a raster whose bytes went out from the packer's state `z`, and it is where the
reference encoder `e` is. -/
structure Follows (z t : State) (d : Nat) (e : Encoder) : Prop where
  inv : RunInv t
  phase_eq : t.phase = .run
  depth_eq : t.depth.toNat = d
  prefix_iff : t.havePrefix = e.pending.isSome
  prefix_eq : ∀ q, e.pending = some q → t.prefixCode.toNat = q
  next_eq : t.nextCode.toNat = Reference.firstFree d + e.pairs.length
  dict_eq : ∀ q p, dictLookup q p t =
    if (q.toNat, p.toNat) ∈ e.pairs then
      some (BitVec.ofNat 12 (Reference.firstFree d + e.pairs.idxOf (q.toNat, p.toNat)))
    else none
  stream : Streamed z t (bitValue e.codes) (bitCount e.codes)
  input_eq : t.input = z.input
  mcs_eq : t.emitMcs = z.emitMcs

/-- The packer just after `START`'s registers and the minimum-code-size byte. -/
theorem startRegisters_ready (d : DepthField) (s : State) : PackerReady (emitMinCodeSize (startRegisters d s)) :=
  ⟨by simp, by simp, by simp⟩

/-- R110: a performed `START d`. -/
theorem follows_start {s : State} {d : DepthField} (hp : s.phase = .idle ∨ s.phase = .done) (he : s.errcode = .none)
    (h2 : 2 ≤ d.toNat) (h8 : d.toNat ≤ 8) :
    ∃ t, execStart d s = .next t ∧
      Follows (emitMinCodeSize (startRegisters d s)) t d.toNat (Encoder.start d.toNat) := by
  obtain ⟨b4, b8, b2⟩ := clear_bounds ⟨h2, h8⟩
  have hr := startRegisters_ready d s
  obtain ⟨t, ht, hs⟩ := (Streamed.start hr).pack (c := 2 ^ d.toNat) (w := d.toNat + 1) (by omega) (by omega)
  obtain ⟨f1, f2, f3, f4, f5, f6, f7, f8, f9, f10, f11, -⟩ := startRaster_fields ht
  have hl : depthLegal d = true := depthLegal_iff.2 ⟨h2, h8⟩
  refine ⟨t, ?_, ?_⟩
  · rcases hp with hp | hp <;> simp [execStart, whenLegal, hp, hl, startRaster, ht]
  · have hn : t.nextCode.toNat = 2 ^ d.toNat + 2 := by rw [f7, BitVec.toNat_ofNat]; simp only [firstFree]; omega
    have hm : (Streamed (emitMinCodeSize (startRegisters d s)) t
        (bitValue (Encoder.start d.toNat).codes) (bitCount (Encoder.start d.toNat).codes)) := by
      simpa [Encoder.start, bitValue, bitCount] using hs
    exact
      { inv := RunInv.of_fresh (s := t) (by rw [f3]; exact ⟨h2, h8⟩) hs.ready rfl f6 (by rw [f7, f3]) (by rw [f8, f3])
          (by simp [f4]) (by rw [f2, he])
        phase_eq := f1
        depth_eq := by rw [f3]
        prefix_iff := f4
        prefix_eq := by simp [Encoder.start]
        next_eq := by simp [hn, Encoder.start]
        dict_eq := fun q p => by rw [dictLookup_empty f6]; simp [Encoder.start]
        stream := hm
        input_eq := by rw [f10]; simp
        mcs_eq := by rw [f11]; simp }

/-- R113: a performed `PIX p`. -/
theorem follows_pixel {z t : State} {d : Nat} {e : Encoder} {p : Pixel} (h : Follows z t d e) (hp : p.toNat < 2 ^ d) :
    ∃ u, execPix p t = .next u ∧ Follows z u d (e.pixel d p.toNat) := by
  have hi := h.inv
  have hp' : p.toNat < 2 ^ t.depth.toNat := by rw [h.depth_eq]; exact hp
  have hx : execPix p t = consumePixel p t := by
    simp [execPix, whenLegal, h.phase_eq, pixelInPalette_iff.2 hp']
  have hff := hi.nextCode_range
  simp only [firstFree, codeLimit, Config.maxBits, h.depth_eq] at hff
  rw [hx]
  unfold consumePixel Encoder.pixel
  have hpre := h.prefix_iff
  cases hq : e.pending with
  | none =>
    rw [hq] at hpre
    have hpre : t.havePrefix = false := hpre
    rw [hpre]
    exact ⟨_, rfl,
      { inv := hi.move_prefix ⟨_, true, rfl⟩ (hi.literal_known hp')
        phase_eq := h.phase_eq
        depth_eq := h.depth_eq
        prefix_iff := rfl
        prefix_eq := fun q hq' => (literalCode_toNat p).trans (Option.some.inj hq')
        next_eq := h.next_eq
        dict_eq := h.dict_eq
        stream := h.stream.congr rfl rfl rfl rfl rfl rfl
        input_eq := h.input_eq
        mcs_eq := h.mcs_eq }⟩
  | some q =>
    rw [hq] at hpre
    have hpre : t.havePrefix = true := hpre
    have hqt : t.prefixCode.toNat = q := h.prefix_eq q hq
    have hlook := h.dict_eq t.prefixCode p
    rw [hqt] at hlook
    rw [hpre, if_pos rfl]
    by_cases hmem : (q, p.toNat) ∈ e.pairs
    · rw [if_pos hmem] at hlook
      rw [hlook]
      simp only [if_pos hmem]
      have hidx := List.idxOf_lt_length_of_mem hmem
      have hc : (BitVec.ofNat 12 (Reference.firstFree d + e.pairs.idxOf (q, p.toNat))).toNat =
          Reference.firstFree d + e.pairs.idxOf (q, p.toNat) := by
        rw [BitVec.toNat_ofNat, Nat.mod_eq_of_lt]
        have := h.next_eq; omega
      exact ⟨_, rfl,
        { inv := hi.move_prefix ⟨BitVec.ofNat 12 _, true, by unfold setPrefix; rw [← hpre]⟩ (hi.entry_known hlook)
          phase_eq := h.phase_eq
          depth_eq := h.depth_eq
          prefix_iff := hpre
          prefix_eq := fun q' hq' => by injection hq' with hq'; rw [← hq']; exact hc
          next_eq := h.next_eq
          dict_eq := h.dict_eq
          stream := h.stream.congr rfl rfl rfl rfl rfl rfl
          input_eq := h.input_eq
          mcs_eq := h.mcs_eq }⟩
    · rw [if_neg hmem] at hlook
      rw [hlook]
      simp only [if_neg hmem]
      have hwe : t.width.toNat = e.width d := hi.width_eq h.depth_eq h.next_eq
      obtain ⟨u, hu, su⟩ := h.stream.pack hi.width_le (hi.prefix_fits hpre)
      rw [hqt, hwe, ← bitCount_push e.codes q, ← bitValue_push e.codes q (e.width d)] at su
      have ho := packBits_only hu
      obtain ⟨f1, f2, f3, f4, f5, f6, f7, f8, f9, f10, f11, -⟩ := ho.fields
      unfold novelPair emitCode
      rw [hu]
      simp only [andThen_of_next, widthUpdate_nextCode, f7, codeLimit, Config.maxBits]
      by_cases hlt : t.nextCode.toNat < 4096
      · have hlt2 : Reference.firstFree d + e.pairs.length < 4096 := h.next_eq ▸ hlt
        simp only [show t.nextCode.toNat < 2 ^ 12 from hlt, if_true, andThen_of_next, if_pos hlt2]
        refine ⟨_, rfl, ?_⟩
        have hl2 : ∀ q' p', dictLookup q' p' (setPrefix (literalCode p) (extendDict t.prefixCode p (widthUpdate u))) =
            if q' = t.prefixCode ∧ p' = p then some (t.nextCode.setWidth 12) else dictLookup q' p' t :=
          dictLookup_put (by simp [f7, f8])
        exact
          { inv := hi.insert hpre hp' hlook hlt ho su.ready
            phase_eq := by simp [f1, h.phase_eq]
            depth_eq := by simp [f3, h.depth_eq]
            prefix_iff := by simp [f4, hpre]
            prefix_eq := fun q' hq' => (literalCode_toNat p).trans (Option.some.inj hq')
            next_eq := by
              simp only [setPrefix_nextCode, extendDict_nextCode, widthUpdate_nextCode, f7, nextCode_succ hlt, h.next_eq,
                List.length_append, List.length_singleton]; omega
            dict_eq := fun q' p' => by
              rw [hl2, h.dict_eq]
              by_cases hk : q' = t.prefixCode ∧ p' = p
              · obtain ⟨rfl, rfl⟩ := hk
                rw [if_pos ⟨rfl, rfl⟩, hqt, if_pos (by simp), List.idxOf_append, if_neg hmem, List.idxOf_cons_self]
                refine congrArg some (BitVec.eq_of_toNat_eq ?_)
                rw [nextCode_setWidth hlt, BitVec.toNat_ofNat, h.next_eq, Nat.mod_eq_of_lt (by omega)]; omega
              · rw [if_neg hk]
                have hne : ¬ (q'.toNat, p'.toNat) = (q, p.toNat) := by
                  intro hcon
                  injection hcon with h1 h2
                  exact hk ⟨BitVec.eq_of_toNat_eq (h1.trans hqt.symm), BitVec.eq_of_toNat_eq h2⟩
                by_cases hm : (q'.toNat, p'.toNat) ∈ e.pairs
                · rw [if_pos hm, if_pos (by simp [hm]), List.idxOf_append, if_pos hm]
                · rw [if_neg hm, if_neg (by simpa [hm] using hne)]
            stream := su.congr (by simp) (by simp) (by simp) (by simp) (by simp) (by simp)
            input_eq := by simp [f10, h.input_eq]
            mcs_eq := by simp [f11, h.mcs_eq] }
      · have hlt2 : ¬ Reference.firstFree d + e.pairs.length < 4096 := h.next_eq ▸ hlt
        have hfull : 4096 ≤ t.nextCode.toNat := by omega
        have hw12 := hi.widthUpdate_of_full hfull
        simp only [show ¬ t.nextCode.toNat < 2 ^ 12 from hlt, if_false, if_neg hlt2, clearAndReset]
        have sw := su.congr (u := widthUpdate u) (by simp) (by simp) (by simp) (by simp) (by simp) (by simp)
        obtain ⟨v, hv, sv⟩ := sw.pack (c := clearCode t.depth) (w := 12) (by omega) hi.clear_fits
        rw [widthUpdate_depth, f3, ho.widthUpdate_width, hw12, hv]
        simp only [andThen_of_next]
        refine ⟨_, rfl, ?_⟩
        obtain ⟨g1, g2, g3, g4, g5, g6, g7, g8, g9, g10, g11, -⟩ := (packBits_only hv).fields
        simp only [widthUpdate_phase, widthUpdate_errcode, widthUpdate_depth, widthUpdate_havePrefix,
          widthUpdate_input, widthUpdate_emitMcs, f1, f2, f3, f4, f10, f11] at g1 g2 g3 g4 g10 g11
        have hcl : clearCode t.depth = 2 ^ d := by simp [h.depth_eq]
        rw [hcl, ← bitCount_push, ← bitValue_push _ _ 12, List.append_assoc, List.singleton_append] at sv
        have hd := hi.depth_range
        obtain ⟨b4, b8, b2⟩ := clear_bounds hd
        exact
          { inv := RunInv.of_fresh (s := v) (by rw [g3]; exact hd)
              (sv.ready.congr (by simp) (by simp) (by simp)) (by simp) (by simp) (by simp) (by simp)
              (fun _ => by simpa [literalCode_toNat, g3] using hp') (by simp [g2, hi.no_error])
            phase_eq := by simp [g1, h.phase_eq]
            depth_eq := by simp [g3, h.depth_eq]
            prefix_iff := by simp [g4, hpre]
            prefix_eq := fun q' hq' => (literalCode_toNat p).trans (Option.some.inj hq')
            next_eq := by
              simp only [setPrefix_nextCode, freshTable_nextCode, g3, firstFree, BitVec.toNat_ofNat, h.depth_eq,
                List.length_nil]
              simp only [Reference.firstFree]; rw [h.depth_eq] at b8; omega
            dict_eq := fun q' p' => by rw [dictLookup_empty (by simp)]; simp
            stream := sv.congr (by simp) (by simp) (by simp) (by simp) (by simp) (by simp)
            input_eq := by simp [g10, h.input_eq]
            mcs_eq := by simp [g11, h.mcs_eq] }

/-- R116: a performed `FINISH`: everything the raster still holds back goes out, and the rest of `OUT` is as `z` left
it. -/
theorem follows_finish {z t : State} {d : Nat} {e : Encoder} (h : Follows z t d e) (hs : e.pending.isSome)
    (hz : pendingBytes z = []) :
    ∃ u, execFinish t = .next u ∧ u.phase = .done ∧ u.errcode = .none ∧ u.input = z.input ∧ u.emitMcs = z.emitMcs ∧
      u.out = z.out ++ frame (bytes (e.finish d)) := by
  obtain ⟨q, hq⟩ := Option.isSome_iff_exists.1 hs
  have hi := h.inv
  have hpre : t.havePrefix = true := h.prefix_iff.trans (by rw [hq]; rfl)
  have hqt : t.prefixCode.toNat = q := h.prefix_eq q hq
  have hwe : t.width.toNat = e.width d := hi.width_eq h.depth_eq h.next_eq
  obtain ⟨u, hu, su⟩ := h.stream.pack hi.width_le (hi.prefix_fits hpre)
  have ho := packBits_only hu
  obtain ⟨v, hv, sv⟩ := (su.congr (u := widthUpdate u) (by simp) (by simp) (by simp) (by simp) (by simp) (by simp)).pack
    (widthUpdate_le hi.width_le) hi.eoi_fits
  obtain ⟨x, y, hx, hy, hout, ha, hn, hc⟩ := sv.finish
  obtain ⟨g1, g2, g3, g4, g5, g6, g7, g8, g9, -⟩ := finishRaster_fields hu hv hx hy
  have hww : (widthUpdate t).width.toNat = codeWidth d (e.pairs.length + 2) := by
    have h5 := hi.width_range
    have h6 := hi.nextCode_fits
    have h7 := hi.width_least
    have hff := hi.nextCode_range.2
    have he := h.next_eq
    simp only [initWidth, codeLimit, Config.maxBits, h.depth_eq] at h5 h6 h7 hff
    have h2 : 2 ≤ d := h.depth_eq ▸ hi.depth_range.1
    rw [widthUpdate_toNat hi.width_le]
    refine (codeWidth_eoi h2 h5.1 h5.2 (by simpa [he] using h6) (by simpa [he] using h7) (by omega) ?_).symm
    rw [he]
  refine ⟨{ terminate y with havePrefix := false, phase := .done }, ?_, rfl, ?_, ?_, ?_, ?_⟩
  · simp only [execFinish, whenLegal, h.phase_eq, hpre, finishRaster, emitCode, hu, andThen_of_next, emitEOI,
      widthUpdate_depth, ho.fields.2.2.1, ho.widthUpdate_width, hv, hx, hy]
    simp
  · simp [g1, hi.no_error]
  · simp [g8, h.input_eq]
  · simp [g9, h.mcs_eq]
  · show (terminate y).out = _
    rw [hout, hz, List.nil_append]
    have hcs : e.finish d = e.codes ++ [(q, e.width d)] ++ [(2 ^ d + 1, codeWidth d (e.pairs.length + 2))] := by
      simp [Encoder.finish, hq]
    rw [hcs, bytes, bitCount_push, bitCount_push, bitValue_push, bitValue_push, bitCount_push, hqt, hwe, hww,
      eoiCode, h.depth_eq]

end Sys2Proof.Machine
end

