-- ==== Sys2Proof/Laws/RoundTrip.lean ====
section
/-! SUPPORT. Laws/RoundTrip.lean: the reference encoder's codes pixel by pixel, and the reader of
Safety/GifDecoder.lean on them (40_dictionary_builder.md R118; 30_encoding.md R93, R94). -/

namespace Sys2Proof.Reference

/-! ## Widths -/

/-- R93, with R37 items 5 to 7: what the closed formula promises while the code space lasts. -/
theorem codeWidth_bounds {d n : Nat} (h2 : 2 ≤ d) (h8 : d ≤ 8) (hn : firstFree d + n ≤ 4096) :
    d + 1 ≤ codeWidth d (n + 1) ∧ codeWidth d (n + 1) ≤ 12 ∧ firstFree d + n ≤ 2 ^ codeWidth d (n + 1) ∧
      (d + 1 < codeWidth d (n + 1) → 2 ^ (codeWidth d (n + 1) - 1) < firstFree d + n) := by
  have hp : 2 ^ (d + 1) = 2 * 2 ^ d := by rw [Nat.pow_succ]; omega
  have h4 : 4 ≤ 2 ^ d := Nat.pow_le_pow_right (n := 2) (by decide) h2
  unfold codeWidth
  split
  · have : n = 0 := by omega
    subst this
    exact ⟨Nat.le_refl _, by omega, by simp only [firstFree]; omega, by omega⟩
  · rw [show firstFree d + (n + 1) - 2 = firstFree d + n - 1 by omega]
    have hsize : Nat.size (firstFree d + n - 1) ≤ 12 := Nat.size_le.2 (by omega)
    have hlt := Nat.lt_size_self (firstFree d + n - 1)
    have hmin : min 12 (max (d + 1) (Nat.size (firstFree d + n - 1))) =
        max (d + 1) (Nat.size (firstFree d + n - 1)) := by omega
    rw [hmin]
    refine ⟨by omega, by omega, ?_, fun hgt => ?_⟩
    · have := Nat.pow_le_pow_right (n := 2) (by decide)
        (Nat.le_max_right (d + 1) (Nat.size (firstFree d + n - 1)))
      omega
    · have he : max (d + 1) (Nat.size (firstFree d + n - 1)) = Nat.size (firstFree d + n - 1) := by omega
      rw [he] at hgt ⊢
      have := Nat.lt_size.1 (show Nat.size (firstFree d + n - 1) - 1 < Nat.size (firstFree d + n - 1) by omega)
      omega

/-- R93: the next position's width: one bit more exactly when the codes so far fill the width. -/
theorem codeWidth_next {d n : Nat} (h2 : 2 ≤ d) (h8 : d ≤ 8) (hn : firstFree d + n ≤ 4096) :
    codeWidth d (n + 2) =
      if firstFree d + n = 2 ^ codeWidth d (n + 1) ∧ codeWidth d (n + 1) < 12 then codeWidth d (n + 1) + 1
      else codeWidth d (n + 1) := by
  obtain ⟨b1, b2, b3, b4⟩ := codeWidth_bounds h2 h8 hn
  rw [codeWidth_eoi h2 b1 b2 b3 b4 hn rfl]
  congr 1
  exact propext ⟨fun h => ⟨by omega, h.1⟩, fun h => ⟨h.2, by omega⟩⟩

/-! ## The codes still to come -/

/-- The codes from the pending prefix `q` on, with the pairs `ps` still to come. -/
def codesFrom (d : Nat) : List (Nat × Nat) → Nat → List Nat → List (Nat × Nat)
  | pairs, q, [] => [(q, codeWidth d (pairs.length + 1)), (2 ^ d + 1, codeWidth d (pairs.length + 2))]
  | pairs, q, p :: ps =>
    if (q, p) ∈ pairs then codesFrom d pairs (firstFree d + pairs.idxOf (q, p)) ps
    else if firstFree d + pairs.length < 4096 then
      (q, codeWidth d (pairs.length + 1)) :: codesFrom d (pairs ++ [(q, p)]) p ps
    else (q, codeWidth d (pairs.length + 1)) :: (2 ^ d, 12) :: codesFrom d [] p ps

theorem finish_eq (d : Nat) (ps : List Nat) : ∀ (pairs : List (Nat × Nat)) (q : Nat) (cs : List (Nat × Nat)),
    (ps.foldl (Encoder.pixel d) ⟨pairs, some q, cs⟩).finish d = cs ++ codesFrom d pairs q ps := by
  induction ps with
  | nil => intro pairs q cs; rfl
  | cons p ps ih =>
    intro pairs q cs
    rw [List.foldl_cons, codesFrom]
    simp only [Encoder.pixel, Encoder.width]
    split
    · rw [ih]
    · split
      · rw [ih, List.append_assoc]; rfl
      · rw [ih, List.append_assoc]; rfl

theorem codes_cons (d p : Nat) (ps : List Nat) : codes d (p :: ps) = (2 ^ d, d + 1) :: codesFrom d [] p ps := by
  rw [codes, encoderAfter, List.foldl_cons]
  exact finish_eq d ps [] p _

/-- The code `c` names a string when the pairs so far are `pairs`. -/
def Names (d : Nat) (pairs : List (Nat × Nat)) (c : Nat) : Prop :=
  c < 2 ^ d ∨ firstFree d ≤ c ∧ c < firstFree d + pairs.length

/-- R37 item 4: each pair's code named a string before the pair was entered, and its pixel is below `2^d`. -/
def Built (d : Nat) (pairs : List (Nat × Nat)) : Prop :=
  ∀ i q p, pairs[i]? = some (q, p) → Names d (pairs.take i) q ∧ p < 2 ^ d

theorem Built.nil (d : Nat) : Built d [] := by intro i q p h; simp at h

theorem Built.push {d : Nat} {pairs : List (Nat × Nat)} {q p : Nat} (h : Built d pairs) (hq : Names d pairs q)
    (hp : p < 2 ^ d) : Built d (pairs ++ [(q, p)]) := by
  intro i q' p' hi
  rcases Nat.lt_trichotomy i pairs.length with hlt | heq | hgt
  · rw [List.getElem?_append_left hlt] at hi
    rw [List.take_append_of_le_length (by omega)]
    exact h i q' p' hi
  · subst heq
    rw [List.getElem?_append_right (by omega), Nat.sub_self] at hi
    simp only [List.getElem?_cons_zero, Option.some.injEq, Prod.mk.injEq] at hi
    rw [List.take_append_of_le_length (by omega), List.take_length, ← hi.1, ← hi.2]
    exact ⟨hq, hp⟩
  · rw [List.getElem?_eq_none (by simp; omega)] at hi
    simp at hi

theorem Names.idxOf {d : Nat} {pairs : List (Nat × Nat)} {x : Nat × Nat} (h : x ∈ pairs) :
    Names d pairs (firstFree d + pairs.idxOf x) :=
  .inr ⟨by omega, by have := List.idxOf_lt_length_of_mem h; omega⟩

theorem Names.fits {d : Nat} {pairs : List (Nat × Nat)} {c : Nat} (h : Names d pairs c) (h2 : 2 ≤ d) (h8 : d ≤ 8)
    (hn : firstFree d + pairs.length ≤ 4096) : c < 2 ^ codeWidth d (pairs.length + 1) := by
  have b3 := (codeWidth_bounds h2 h8 hn).2.2.1
  rcases h with h | ⟨-, h⟩
  · simp only [firstFree] at b3; omega
  · omega

theorem eoi_fits {d n : Nat} (h2 : 2 ≤ d) (h8 : d ≤ 8) (hn : firstFree d + n ≤ 4096) :
    2 ^ d + 1 < 2 ^ codeWidth d (n + 2) := by
  have h4 : 4 ≤ 2 ^ d := Nat.pow_le_pow_right (n := 2) (by decide) h2
  have b1 := (codeWidth_bounds h2 h8 hn).1
  have hle : d + 1 ≤ codeWidth d (n + 2) := by rw [codeWidth_next h2 h8 hn]; split <;> omega
  have := Nat.pow_le_pow_right (n := 2) (by decide) hle
  rw [Nat.pow_succ] at this
  omega

/-- Every code to come fits its width. -/
theorem codesFrom_fits {d : Nat} (h2 : 2 ≤ d) (h8 : d ≤ 8) (ps : List Nat) : ∀ (pairs : List (Nat × Nat)) (q : Nat),
    Names d pairs q → firstFree d + pairs.length ≤ 4096 → (∀ p ∈ ps, p < 2 ^ d) →
    ∀ x ∈ codesFrom d pairs q ps, x.1 < 2 ^ x.2 := by
  have hclear : 2 ^ d < 2 ^ 12 := Nat.pow_lt_pow_right (by decide) (by omega)
  have h256 : 2 ^ d ≤ 256 := Nat.pow_le_pow_right (n := 2) (by decide) h8
  induction ps with
  | nil =>
    intro pairs q hq hn _ x hx
    rw [codesFrom, List.mem_cons, List.mem_singleton] at hx
    rcases hx with rfl | rfl
    · exact hq.fits h2 h8 hn
    · exact eoi_fits h2 h8 hn
  | cons p ps ih =>
    intro pairs q hq hn hp x hx
    rw [codesFrom] at hx
    have hps : ∀ p ∈ ps, p < 2 ^ d := fun r hr => hp r (by simp [hr])
    have hlit : ∀ D, Names d D p := fun D => .inl (hp p (by simp))
    split at hx
    · exact ih _ _ (.idxOf ‹_›) hn hps x hx
    · split at hx
      · rcases List.mem_cons.1 hx with rfl | hx
        · exact hq.fits h2 h8 hn
        · exact ih _ _ (hlit _) (by simp; omega) hps x hx
      · rcases List.mem_cons.1 hx with rfl | hx
        · exact hq.fits h2 h8 hn
        · rcases List.mem_cons.1 hx with rfl | hx
          · exact hclear
          · exact ih _ _ (hlit _) (by simp [firstFree]; omega) hps x hx

theorem bitValue_lt {cs : List (Nat × Nat)} (h : ∀ x ∈ cs, x.1 < 2 ^ x.2) : bitValue cs < 2 ^ bitCount cs := by
  induction cs with
  | nil => simp [bitValue, bitCount]
  | cons x cs ih =>
    have hx := h x (by simp)
    have hi := ih fun y hy => h y (by simp [hy])
    simp only [bitValue, bitCount, Nat.pow_add]
    have : 2 ^ x.2 * (bitValue cs + 1) ≤ 2 ^ x.2 * 2 ^ bitCount cs := Nat.mul_le_mul_left _ hi
    rw [Nat.mul_add] at this
    omega

/-! ## The strings that codes name -/

/-- The string of a code, given the strings of the entries. -/
def stringIn (d : Nat) (table : List (List Nat)) (c : Nat) : List Nat :=
  if c < 2 ^ d then [c] else (table[c - firstFree d]?).getD []

/-- The strings of the entries, oldest first: each is its prefix's string and its pixel. -/
def strings (d : Nat) (pairs : List (Nat × Nat)) : List (List Nat) :=
  pairs.foldl (fun table x => table ++ [stringIn d table x.1 ++ [x.2]]) []

@[simp] theorem strings_nil (d : Nat) : strings d [] = [] := rfl

theorem strings_push (d : Nat) (pairs : List (Nat × Nat)) (q p : Nat) :
    strings d (pairs ++ [(q, p)]) = strings d pairs ++ [stringIn d (strings d pairs) q ++ [p]] := by
  simp [strings]

@[simp] theorem strings_length (d : Nat) (pairs : List (Nat × Nat)) : (strings d pairs).length = pairs.length := by
  induction pairs using List.reverseRecOn with
  | nil => rfl
  | append_singleton pairs x ih => obtain ⟨q, p⟩ := x; rw [strings_push]; simp [ih]

/-- More entries do not change the string of a code that already names one. -/
theorem stringIn_push {d : Nat} {pairs : List (Nat × Nat)} {c : Nat} (more : List (List Nat)) (h : Names d pairs c) :
    stringIn d (strings d pairs ++ more) c = stringIn d (strings d pairs) c := by
  unfold stringIn
  rcases h with h | ⟨h1, h3⟩
  · simp [h]
  · rw [List.getElem?_append_left (by rw [strings_length]; omega)]

/-- No code names the empty string. -/
theorem stringIn_ne_nil {d : Nat} {pairs : List (Nat × Nat)} {c : Nat} (h : Names d pairs c) :
    stringIn d (strings d pairs) c ≠ [] := by
  induction pairs using List.reverseRecOn with
  | nil =>
    rcases h with h | ⟨h1, h3⟩
    · simp [stringIn, h]
    · simp at h3; omega
  | append_singleton pairs x ih =>
    obtain ⟨q, p⟩ := x
    rw [strings_push]
    by_cases hin : Names d pairs c
    · rw [stringIn_push _ hin]; exact ih hin
    · have hc : ¬ c < 2 ^ d := fun a => hin (.inl a)
      rcases h with h | ⟨h1, h3⟩
      · exact absurd h hc
      · have hge : ¬ c < firstFree d + pairs.length := fun a => hin (.inr ⟨h1, a⟩)
        rw [List.length_append, List.length_singleton] at h3
        unfold stringIn
        rw [if_neg hc, List.getElem?_append_right (by rw [strings_length]; omega), strings_length,
          show c - firstFree d - pairs.length = 0 by omega]
        simp

/-- The string of a pair's own code is its prefix's string and its pixel. -/
theorem stringIn_entry {d : Nat} {pairs : List (Nat × Nat)} (hb : Built d pairs) {i q p : Nat}
    (hi : pairs[i]? = some (q, p)) :
    stringIn d (strings d pairs) (firstFree d + i) = stringIn d (strings d pairs) q ++ [p] := by
  induction pairs using List.reverseRecOn with
  | nil => simp at hi
  | append_singleton pairs x ih =>
    obtain ⟨q', p'⟩ := x
    have hb' : Built d pairs := fun j a b hj => by
      have hlt : j < pairs.length := by
        by_contra hge
        rw [List.getElem?_eq_none (by omega)] at hj; simp at hj
      have := hb j a b (by rw [List.getElem?_append_left hlt]; exact hj)
      rwa [List.take_append_of_le_length (by omega)] at this
    rw [strings_push]
    rcases Nat.lt_trichotomy i pairs.length with hlt | heq | hgt
    · rw [List.getElem?_append_left hlt] at hi
      have hq : Names d pairs q := by
        rcases (hb' i q p hi).1 with h | ⟨h1, h3⟩
        · exact .inl h
        · exact .inr ⟨h1, by rw [List.length_take] at h3; omega⟩
      rw [stringIn_push _ hq, stringIn_push _ (.inr ⟨by omega, by omega⟩)]
      exact ih hb' hi
    · subst heq
      rw [List.getElem?_append_right (by omega), Nat.sub_self] at hi
      simp only [List.getElem?_cons_zero, Option.some.injEq, Prod.mk.injEq] at hi
      have hq := (hb pairs.length q' p' (by simp)).1
      rw [List.take_append_of_le_length (by omega), List.take_length] at hq
      rw [← hi.1, ← hi.2, stringIn_push _ hq]
      have hnot : ¬ firstFree d + pairs.length < 2 ^ d := by simp only [firstFree]; omega
      unfold stringIn
      rw [if_neg hnot, Nat.add_sub_cancel_left, List.getElem?_append_right (by rw [strings_length]), strings_length]
      simp
    · rw [List.getElem?_eq_none (by simp; omega)] at hi
      simp at hi

end Sys2Proof.Reference

namespace Sys2Proof.GifDecoder

open Reference

/-! ## Framing and bytes -/

theorem streamValue_lowBytes (n v : Nat) : streamValue (lowBytes n v) = v % 256 ^ n := by
  induction n generalizing v with
  | zero => simp [streamValue, Nat.mod_one]
  | succ n ih =>
    rw [lowBytes_succ, streamValue, ih, Nat.pow_succ', Nat.mod_mul, BitVec.toNat_ofNat]

theorem unframe_group {fuel : Nat} {g rest : List (BitVec 8)} (h1 : 1 ≤ g.length) (h2 : g.length < 256) :
    unframe (fuel + 1) (BitVec.ofNat 8 g.length :: (g ++ rest)) = (unframe fuel rest).map (g ++ ·) := by
  have hn : (BitVec.ofNat 8 g.length).toNat = g.length := by rw [BitVec.toNat_ofNat]; omega
  have h0 : BitVec.ofNat 8 g.length ≠ 0#8 := fun e => by
    rw [e] at hn; simp at hn; omega
  rw [unframe, if_neg h0, hn, if_neg (by simp), List.drop_left, List.take_left]

/-- R90, R155: reading a frame gives the bytes that were framed. -/
theorem unframe_frame (bs : List (BitVec 8)) : ∀ fuel, bs.length / 254 + 2 ≤ fuel → unframe fuel (frame bs) = some bs := by
  induction h : bs.length using Nat.strong_induction_on generalizing bs with
  | _ n ih =>
    subst h
    intro fuel hf
    obtain ⟨fuel, rfl⟩ : ∃ k, fuel = k + 2 := ⟨fuel - 2, by omega⟩
    by_cases hs : bs.length < 254
    · rw [frame, fullBlocks_of_short hs, lastGroup_of_short hs]
      by_cases he : bs = []
      · subst he; rfl
      · have hp : 1 ≤ bs.length := List.length_pos_iff.2 he
        rw [if_neg he, List.nil_append, List.cons_append, unframe_group hp (by omega)]
        simp [unframe]
    · have hg : (bs.take 254).length = 254 := by simp; omega
      have hfr : frame bs = 254#8 :: (bs.take 254 ++ frame (bs.drop 254)) := by
        rw [← List.take_append_drop 254 bs, frame_append]
        have e1 := fullBlocks_group (rest := []) hg
        have e2 := lastGroup_group (rest := []) hg
        rw [List.append_nil] at e1 e2
        rw [e1, e2, fullBlocks_of_short (by simp), lastGroup_of_short (by simp)]
        simp
      have hb : (254#8 : BitVec 8) = BitVec.ofNat 8 (bs.take 254).length := by rw [hg]
      rw [hfr, hb, unframe_group (by omega) (by omega),
        ih (bs.drop 254).length (by simp; omega) _ rfl _ (by simp; omega)]
      simp

/-! ## The decoding loop on a code stream -/

theorem stringOf_names {d : Nat} {pairs : List (Nat × Nat)} {c : Nat} (h : Names d pairs c) :
    stringOf d (strings d pairs) c = some (stringIn d (strings d pairs) c) := by
  unfold stringOf stringIn
  rcases h with h | ⟨h1, h3⟩
  · simp [h]
  · have hlt : c - firstFree d < (strings d pairs).length := by rw [strings_length]; omega
    have hnot : ¬ c < 2 ^ d := by simp only [firstFree] at h1; omega
    rw [if_neg hnot, if_neg hnot, if_pos h1, List.getElem?_eq_getElem hlt]
    rfl

theorem stringOf_next {d : Nat} {pairs : List (Nat × Nat)} :
    stringOf d (strings d pairs) (firstFree d + pairs.length) = none := by
  unfold stringOf
  rw [if_neg (by simp only [firstFree]; omega), if_pos (by simp only [firstFree]; omega)]
  simp

/-- What the reader holds when the encoder holds `pairs`: it is one entry behind. -/
def lagging (d : Nat) (pairs : List (Nat × Nat)) : Option (List (List Nat)) × Option (List Nat) :=
  (some (strings d pairs.dropLast), pairs.getLast?.map fun x => stringIn d (strings d pairs.dropLast) x.1)

/-- The encoder's state between two codes, as the reader's proof needs it: the pending string begins with the pixel
of the newest entry. -/
structure Pending (d : Nat) (pairs : List (Nat × Nat)) (q : Nat) : Prop where
  built : Built d pairs
  names : Names d pairs q
  limit : firstFree d + pairs.length ≤ 4096
  starts : ∀ x, pairs.getLast? = some x → (stringIn d (strings d pairs) q).head? = some x.2

/-- One data code: the reader outputs the pending string and has caught up with `pairs`. -/
theorem loop_data {d fuel q v left : Nat} {pairs : List (Nat × Nat)} (h2 : 2 ≤ d) (h8 : d ≤ 8) (h : Pending d pairs q)
    (hl : codeWidth d (pairs.length + 1) ≤ left) :
    loop d (fuel + 1) (q + 2 ^ codeWidth d (pairs.length + 1) * v) left (lagging d pairs).1
        (codeWidth d (pairs.length + 1)) (lagging d pairs).2 =
      (loop d fuel v (left - codeWidth d (pairs.length + 1)) (some (strings d pairs)) (codeWidth d (pairs.length + 2))
        (some (stringIn d (strings d pairs) q))).map (stringIn d (strings d pairs) q ++ ·) := by
  have hfit := h.names.fits h2 h8 h.limit
  have hmod : (q + 2 ^ codeWidth d (pairs.length + 1) * v) % 2 ^ codeWidth d (pairs.length + 1) = q := by
    rw [Nat.add_mul_mod_self_left, Nat.mod_eq_of_lt hfit]
  have hdiv : (q + 2 ^ codeWidth d (pairs.length + 1) * v) / 2 ^ codeWidth d (pairs.length + 1) = v := by
    rw [Nat.add_mul_div_left _ _ (by positivity), Nat.div_eq_of_lt hfit, Nat.zero_add]
  have hn := h.names
  have hclear : q ≠ 2 ^ d ∧ q ≠ 2 ^ d + 1 := by
    have hn' : q < 2 ^ d ∨ 2 ^ d + 2 ≤ q ∧ q < firstFree d + pairs.length := hn
    omega
  have hnext := codeWidth_next h2 h8 h.limit
  rw [loop, if_neg (by omega)]
  simp only [hmod, hdiv, if_neg hclear.1, if_neg hclear.2]
  rcases List.eq_nil_or_concat pairs with rfl | ⟨init, ⟨q0, p0⟩, rfl⟩
  · have hw : codeWidth d (0 + 2) = codeWidth d (0 + 1) := by
      rw [show codeWidth d (0 + 2) = codeWidth d ([].length + 2) from rfl, hnext, if_neg]
      · rfl
      rintro ⟨e, -⟩
      have h4 : 4 ≤ 2 ^ d := Nat.pow_le_pow_right (n := 2) (by decide) h2
      rw [show codeWidth d ([].length + 1) = d + 1 from rfl, Nat.pow_succ] at e
      simp only [firstFree, List.length_nil] at e
      omega
    simp only [lagging, List.dropLast_nil, List.getLast?_nil, Option.map_none, strings_nil, List.length_nil]
    rw [← strings_nil d, stringOf_names hn, strings_nil, hw]
  · simp only [List.concat_eq_append] at *
    have hstart := h.starts (q0, p0) (by simp)
    have hq0 : Names d init q0 := by
      have := (h.built init.length q0 p0 (by simp)).1
      rwa [List.take_append_of_le_length (by omega), List.take_length] at this
    have hlim := h.limit
    simp only [List.length_append, List.length_singleton] at hlim
    have hlag : lagging d (init ++ [(q0, p0)]) = (some (strings d init), some (stringIn d (strings d init) q0)) := by
      simp [lagging]
    rw [hlag]
    simp only
    have key : ((stringOf d (strings d init) q).orElse fun _ =>
          if q = 2 ^ d + 2 + (strings d init).length then
            some (stringIn d (strings d init) q0 ++ (stringIn d (strings d init) q0).take 1) else none) =
          some (stringIn d (strings d (init ++ [(q0, p0)])) q) ∧
        (stringIn d (strings d (init ++ [(q0, p0)])) q).take 1 = [p0] := by
      have htake : (stringIn d (strings d (init ++ [(q0, p0)])) q).take 1 = [p0] := by
        cases hs : stringIn d (strings d (init ++ [(q0, p0)])) q with
        | nil => rw [hs] at hstart; simp at hstart
        | cons a as => rw [hs] at hstart; simpa using hstart
      refine ⟨?_, htake⟩
      by_cases hin : Names d init q
      · rw [stringOf_names hin, strings_push, stringIn_push _ hin]; rfl
      · have hq : q = firstFree d + init.length := by
          rcases hn with a | ⟨a, b⟩
          · exact absurd (.inl a) hin
          · rw [List.length_append, List.length_singleton] at b
            by_contra hne
            exact hin (.inr ⟨a, by omega⟩)
        subst hq
        have hent := stringIn_entry h.built (i := init.length) (q := q0) (p := p0) (by simp)
        have hpush : stringIn d (strings d (init ++ [(q0, p0)])) q0 = stringIn d (strings d init) q0 := by
          rw [strings_push, stringIn_push _ hq0]
        rw [stringOf_next, strings_length, hent, hpush]
        rw [hent, hpush] at htake
        have hne := stringIn_ne_nil hq0
        cases hs : stringIn d (strings d init) q0 with
        | nil => exact absurd hs hne
        | cons a as => rw [hs] at htake; simp at htake; simp [htake]
    rw [key.1]
    simp only
    rw [strings_length, if_pos (by simp only [firstFree] at hlim; omega), key.2]
    congr 1
    rw [hnext]
    simp only [List.length_append, List.length_singleton, ← Nat.add_assoc, strings_push, firstFree]

end Sys2Proof.GifDecoder
end

