-- ==== Sys2Proof/Tests/Slice0.lean ====
section
/-! SUPPORT. Tests/Slice0.lean: the author's own checks: ill-formed terms are refused, words written out from the
encodings, single steps with the results of 95_test_vectors.md, and a witness for the hypotheses of every statement. -/

namespace Sys2Proof.Tests

open Sys2Proof.Machine

/-! ## WellFormed: an `illegal` term that carries a command's word is refused (R81 to R83, R86) -/

theorem test_wf_refuses_illegal_start : (Instr.illegal 0x002#10).wf = false := by decide

theorem test_wf_refuses_illegal_start_zero : (Instr.illegal 0x000#10).wf = false := by decide

theorem test_wf_refuses_illegal_pix : (Instr.illegal 0x1FF#10).wf = false := by decide

theorem test_wf_refuses_illegal_finish : (Instr.illegal 0x200#10).wf = false := by decide

theorem test_wf_accepts : (Instr.illegal 0x010#10).wf = true ∧ (Instr.illegal 0x3FF#10).wf = true ∧
    (Instr.start 15).wf = true ∧ (Instr.pix 255).wf = true ∧ Instr.finish.wf = true := by decide

/-! ## Decode: words written out bit by bit from R81 to R83 and R85; the two-byte carriage of log entry 9 -/

theorem test_decode_start : decodeWord 0b00_0000_0101#10 = .start 5 := by decide

theorem test_decode_pix : decodeWord 0b01_1010_0110#10 = .pix 0xA6 := by decide

theorem test_decode_finish : decodeWord 0b10_0000_0000#10 = .finish := by decide

theorem test_decode_illegal : decodeWord 0b11_0000_0000#10 = .illegal 0x300 ∧
    decodeWord 0b00_0001_0000#10 = .illegal 0x010 ∧ decodeWord 0b10_0000_0001#10 = .illegal 0x201 := by decide

theorem test_encode : encode (.start 8) = 0x008#10 ∧ encode (.pix 5) = 0x105#10 ∧ encode .finish = 0x200#10 ∧
    encode (.illegal 0x3FF) = 0x3FF#10 := by decide

theorem test_decode_table_word : decodeTableWord 16 0x105 = some (.pix 5) ∧ decodeTableWord 16 0x3FF = some (.illegal 0x3FF) ∧
    decodeTableWord 16 0x400 = none ∧ decodeTableWord 8 0x02 = some (.start 2) := by decide

theorem test_decode_bytes_refuses : (decodeBytes [0x05#8]).toOption = none ∧
    (decodeBytes [0x05#8, 0x04#8]).toOption = none ∧ (decodeBytes [0x05#8, 0x01#8]).toOption = some (.pix 5) := by decide

/-! ## One step each, with the results of 95_test_vectors.md -/

/-- What `f` says of the next state, if there is one. -/
def after (r : Result) (f : State → Bool) : Bool :=
  match r with
  | .next t => f t
  | .fault _ => false
  | .refused _ => false

/-- P1 after row 2: `START 2; PIX 1`. -/
def oneWaits : State := { State.reset with
  phase := .run, depth := 2, havePrefix := true, prefixCode := 1, width := 3, nextCode := 6, acc := 4, nacc := 3, out := [0x02] }

/-- P1 after row 6: five `PIX 1`; the keys are `1 ‖ 1` and `1 ‖ 6` (R84). -/
def sixWaits : State := { State.reset with
  phase := .run, depth := 2, havePrefix := true, prefixCode := 6, width := 3, nextCode := 8, acc := 1, nacc := 1,
  blk := [(0, 0x8C)], blkcnt := 1, dict := [(0x1001, 6), (0x1006, 7)], out := [0x02] }

/-- P1 row 1. -/
theorem test_start_depth2 : after (exec (.start 2) State.reset) (fun t =>
    t.phase == .run && t.width == 3 && t.nextCode == 6 && t.acc == 4 && t.nacc == 3 && t.blkcnt == 0 &&
      t.out == [0x02]) = true := by decide

/-- P2 row 1: the low byte of the clear code is in `BLK`. -/
theorem test_start_depth8 : after (exec (.start 8) State.reset) (fun t =>
    t.width == 9 && t.nextCode == 258 && t.acc == 1 && t.nacc == 1 && t.blkcnt == 1 && t.blk == [(0, 0x00)] &&
      t.out == [0x08]) = true := by decide

/-- P1 row 7, case C1: packed in 3 bits, then `WIDTH` grows, then `(6, 2)` becomes 8. -/
theorem test_pix_novel : after (exec (.pix 2) sixWaits) (fun t =>
    t.prefixCode == 2 && t.width == 4 && t.nextCode == 9 && dictLookup 6 2 t == some 8 && dictLookup 6 1 t == some 7 &&
      t.acc == 0b1101 && t.nacc == 4 && t.blkcnt == 1 && t.out == [0x02]) = true := by decide

/-- R113 case C2, R134: 20 and `CLEAR = 256` in 12 bits each are the bytes `14 00 10` (R62, by hand). -/
theorem test_pix_full_table : after
    (exec (.pix 112) { oneWaits with depth := 8, prefixCode := 20, width := 12, nextCode := 4096, acc := 0, nacc := 0 })
    (fun t => t.blk == [(0, 0x14), (1, 0x00), (2, 0x10)] && t.nacc == 0 && t.nextCode == 258 && t.width == 9 &&
      t.prefixCode == 112 && t.dict == []) = true := by decide

/-- P1 row 12. -/
theorem test_finish_p1 : after
    (exec .finish { sixWaits with
      prefixCode := 9, width := 4, nextCode := 11, acc := 0b1001, nacc := 4, blk := [(0, 0x8C), (1, 0x2D)], blkcnt := 2 })
    (fun t => t.phase == .done && !t.havePrefix && t.nacc == 0 && t.blkcnt == 0 &&
      t.out == [0x02, 0x04, 0x8C, 0x2D, 0x99, 0x05, 0x00]) = true := by decide

/-- V14: the final code's width update makes `EOI` 4 bits wide. -/
theorem test_finish_widens : after
    (exec .finish { sixWaits with prefixCode := 2, acc := 0, nacc := 1, blk := [(0, 0x44)] })
    (fun t => t.width == 4 && t.out == [0x02, 0x02, 0x44, 0x54, 0x00]) = true := by decide

/-- F1. -/
theorem test_illegal_idle : after (exec (decodeWord 0x300) State.reset) (fun t =>
    t.phase == .err && t.errcode == .cmd && t.out == [] && status t == 0x07#8) = true := by decide

/-- F14. -/
theorem test_illegal_run : after (exec (decodeWord 0x3FF) oneWaits) (fun t =>
    t.phase == .err && t.errcode == .cmd && t.out == [0x02] && t.acc == 4) = true := by decide

/-- V19 (R13): a block built with `EMIT_MCS = 0` writes no minimum-code-size byte. -/
theorem test_emit_mcs_off : (emitMinCodeSize { oneWaits with emitMcs := false, out := [] }).out = [] ∧
    (emitMinCodeSize { oneWaits with out := [] }).out = [0x02] := by decide

/-- 95_test_vectors.md section 2.3, row 6. -/
theorem test_pack_two_bytes : after (packBits 0xABC 12 { State.reset with acc := 0x7F, nacc := 7 }) (fun t =>
    t.blk == [(0, 0x7F), (1, 0x5E)] && t.acc == 0b101 && t.nacc == 3) = true := by decide

/-- 95_test_vectors.md section 2.3, row 9. -/
theorem test_drain : after (drain { State.reset with acc := 0b1011, nacc := 4 }) (fun t =>
    t.blk == [(0, 0x0B)] && t.acc == 0 && t.nacc == 0) = true := by decide

/-- 95_test_vectors.md section 2.2, the unit cases of `WidthUpdate`. -/
theorem test_width_update :
    [(3, 7, 3), (3, 8, 4), (4, 15, 4), (4, 16, 5), (9, 511, 9), (9, 512, 10), (11, 2047, 11), (11, 2048, 12),
      (12, 4095, 12), (12, 4096, 12)].all (fun (w, n, w') =>
        (widthUpdate { State.reset with width := BitVec.ofNat 4 w, nextCode := BitVec.ofNat 13 n }).width ==
          BitVec.ofNat 4 w') = true := by decide

/-- R152's example. -/
theorem test_flush : after
    (flushBlock { State.reset with blk := [(0, 0x8C), (1, 0x2D), (2, 0x99)], blkcnt := 3 })
    (fun t => t.out == [0x03, 0x8C, 0x2D, 0x99] && t.blkcnt == 0) = true := by decide

/-- R38, V4: after reset an element holds its free value until a byte is stored there (R56), and reset makes it free
again. -/
theorem test_blk_unspecified : blkRead State.reset 253 = Config.blkUnspecified 0 253 ∧ blkRead sixWaits 0 = 0x8C ∧
    blkRead sixWaits 1 = Config.blkUnspecified 0 1 ∧ blkRead (applyReset sixWaits) 0 = Config.blkUnspecified 1 0 :=
  ⟨rfl, rfl, rfl, rfl⟩

/-- P3 row 3 with one byte waiting: `STATUS` in `ERR`. -/
theorem test_status : status { oneWaits with phase := .err, errcode := .range } = 0b0_1_1_100_11#8 := by decide

/-- V12's bytes from the functional summary (R117), and the reader of 95_test_vectors.md section 7 on them. -/
theorem test_reference : Reference.compress true 2 [1, 1, 1] = [0x02, 0x02, 0x8C, 0x0B, 0x00] ∧
    GifDecoder.decode [0x02, 0x02, 0x8C, 0x0B, 0x00] = some [1, 1, 1] := by decide

/-! ## States that satisfy R37, for the hypotheses of the statements -/

theorem oneWaits_inv : RunInv oneWaits :=
  RunInv.of_fresh (s := oneWaits) (by decide) ⟨by decide, by decide, by decide⟩ rfl rfl rfl rfl (fun _ => by decide) rfl

/-- `oneWaits` with the next word at the port. -/
def oneWaitsThen (i : Instr) : State := { oneWaits with input := send [i] }

theorem oneWaitsThen_stateInv (i : Instr) : StateInv (oneWaitsThen i) where
  blk_wf := ⟨.nil, by simp [oneWaitsThen, oneWaits, State.reset]⟩
  dict_wf := ⟨.nil, by simp [oneWaitsThen, oneWaits, State.reset]⟩
  taken_le := by simp [oneWaitsThen, oneWaits, State.reset]
  errcode_iff := by simp [oneWaitsThen, oneWaits, State.reset]
  prefix_phase := fun _ => .inl rfl
  pending_written := .of_empty rfl
  running := fun _ => RunInv.of_fresh (s := oneWaitsThen i) (by simp [oneWaitsThen, oneWaits])
    ⟨by simp [oneWaitsThen, oneWaits, State.reset], by simp [oneWaitsThen, oneWaits], by simp [oneWaitsThen, oneWaits]⟩
    rfl rfl rfl rfl (fun _ => by simp [oneWaitsThen, oneWaits]) rfl

/-- A raster at depth 8 with `n` entries, the `i`-th the pair of the literal `i div 256` and the pixel `i mod 256`; the
literal 20 waits. -/
def tableState (n : Nat) (w : BitVec 4) : State := { State.reset with
  phase := .run, depth := 8, havePrefix := true, prefixCode := 20, width := w, nextCode := BitVec.ofNat 13 (258 + n)
  dict := (List.range n).map fun i => ((i % 256) * 4096 + i / 256, BitVec.ofNat 12 (258 + i)) }

theorem get_map {k : Nat → Nat} {v : Nat → Code} {x : Nat} : ∀ l : List Nat,
    Assoc.get (l.map fun i => (k i, v i)) x = (l.find? fun i => x == k i).map v
  | [] => rfl
  | i :: l => by
    simp only [List.map_cons, Assoc.get, List.find?_cons, get_map l]
    by_cases h : x = k i
    · simp [h]
    · rw [if_neg h, beq_eq_false_iff_ne.2 h]

theorem tableState_lookup {n : Nat} (hn : n ≤ 3838) (w : BitVec 4) (q : Code) (p : Pixel) :
    dictLookup q p (tableState n w) =
      if q.toNat * 256 + p.toNat < n then some (BitVec.ofNat 12 (258 + (q.toNat * 256 + p.toNat))) else none := by
  have hp := p.isLt
  have hq := q.isLt
  have key : ∀ i, i < 2 ^ 20 → ((dictKey q p == (i % 256) * 4096 + i / 256) = true ↔ i = q.toNat * 256 + p.toNat) := by
    intro i hi
    rw [dictKey_eq, beq_iff_eq]
    constructor <;> intro h <;> omega
  have hget : dictLookup q p (tableState n w) =
      ((List.range n).find? fun i => dictKey q p == (i % 256) * 4096 + i / 256).map fun i =>
        BitVec.ofNat 12 (258 + i) := get_map _
  rw [hget]
  split
  · rename_i h
    have : ((List.range n).find? fun i => dictKey q p == (i % 256) * 4096 + i / 256) =
        some (q.toNat * 256 + p.toNat) := by
      rw [List.find?_range_eq_some]
      refine ⟨(key _ (by omega)).2 rfl, List.mem_range.2 h, fun j hj => ?_⟩
      have hne : ¬ (dictKey q p == (j % 256) * 4096 + j / 256) = true := fun e => by
        have := (key j (by omega)).1 e; omega
      simpa using hne
    rw [this]; rfl
  · rename_i h
    rw [List.find?_eq_none.2]
    · rfl
    · intro i hi e
      have hi := List.mem_range.1 hi
      have := (key i (by omega)).1 e
      omega

/-- The table state satisfies R37 when `w` is the least width. -/
theorem tableState_inv {n : Nat} {w : BitVec 4} (hn : n ≤ 3838) (h9 : 9 ≤ w.toNat) (h12 : w.toNat ≤ 12)
    (hfit : 258 + n ≤ 2 ^ w.toNat) (hleast : 9 < w.toNat → 2 ^ (w.toNat - 1) < 258 + n) : RunInv (tableState n w) := by
  have hnext : (tableState n w).nextCode.toNat = 258 + n := by simp [tableState]; omega
  have hlen : (tableState n w).dict.length = n := by simp [tableState]
  have hdep : (tableState n w).depth.toNat = 8 := rfl
  have hlook := tableState_lookup hn w
  have hcode : ∀ k, k < n → (BitVec.ofNat 12 (258 + k)).toNat = 258 + k := fun k hk => by
    rw [BitVec.toNat_ofNat]; omega
  refine
    { depth_legal := rfl
      nextCode_range := by rw [hnext, firstFree, hdep]; simp [codeLimit, Config.maxBits]; omega
      dict_injective := fun q p q' p' c h h' => ?_
      dict_values := fun c => ?_
      dict_size := by rw [hlen, hnext, firstFree, hdep]; omega
      dict_keys := fun q p c h => ?_
      width_range := ⟨h9, h12⟩
      nextCode_fits := by rw [hnext]; exact hfit
      width_least := fun h => by rw [hnext]; exact hleast h
      prefix_known := fun _ => by rw [hnext, clearCode, eoiCode, hdep]; simp [tableState]; omega
      acc_bits := ⟨Nat.zero_le _, Nat.one_pos⟩
      blkcnt_range := Nat.zero_le _
      no_error := rfl }
  · rw [hlook] at h h'
    split at h <;> split at h' <;> simp only [Option.some.injEq, reduceCtorEq] at h h'
    rename_i ha hb
    have e := congrArg BitVec.toNat (Eq.trans h h'.symm)
    rw [hcode _ ha, hcode _ hb] at e
    have := p.isLt; have := p'.isLt
    exact ⟨BitVec.eq_of_toNat_eq (by omega), BitVec.eq_of_toNat_eq (by omega)⟩
  · rw [hnext, firstFree, hdep]
    constructor
    · rintro ⟨q, p, h⟩
      rw [hlook] at h
      split at h <;> simp only [Option.some.injEq, reduceCtorEq] at h
      rw [← h, hcode _ (by omega)]; omega
    · intro hc
      refine ⟨BitVec.ofNat 12 ((c.toNat - 258) / 256), BitVec.ofNat 8 ((c.toNat - 258) % 256), ?_⟩
      have e1 : (BitVec.ofNat 12 ((c.toNat - 258) / 256)).toNat = (c.toNat - 258) / 256 := by
        rw [BitVec.toNat_ofNat]; omega
      have e2 : (BitVec.ofNat 8 ((c.toNat - 258) % 256)).toNat = (c.toNat - 258) % 256 := by
        rw [BitVec.toNat_ofNat]; omega
      rw [hlook, e1, e2, if_pos (by omega)]
      exact congrArg some (BitVec.eq_of_toNat_eq (by rw [hcode _ (by omega)]; omega))
  · rw [hlook] at h
    split at h <;> simp only [Option.some.injEq, reduceCtorEq] at h
    have := p.isLt
    rw [clearCode, hdep]
    exact ⟨by omega, .inl (by omega)⟩

theorem tableState_absent {n : Nat} (hn : n ≤ 3838) (w : BitVec 4) (p : Pixel) :
    dictLookup (tableState n w).prefixCode p (tableState n w) = none := by
  rw [tableState_lookup hn, if_neg]
  have : (tableState n w).prefixCode.toNat = 20 := rfl
  omega

/-! ## A witness for the hypotheses of each statement, clause by clause, at the ends of the ranges -/

/-- A state with the given event at its ports. -/
def facing (e : PortEvent) (s : State) : State := { s with input := [e] }

theorem test_hyp_DecodeInvertsEncodeOnWellFormed :
    (Instr.start 0).wf = true ∧ (Instr.pix 255).wf = true ∧ Instr.finish.wf = true ∧ (Instr.illegal 0x0FF).wf = true := by
  decide

theorem test_hyp_DecodeFollowsItsSixCases :
    (0x00F#10).toNat / 256 = 0 ∧ (0x00F#10).toNat % 256 / 16 = 0 ∧ (0x010#10).toNat / 256 = 0 ∧
    (0x010#10).toNat % 256 / 16 ≠ 0 ∧ (0x1FF#10).toNat / 256 = 1 ∧ (0x200#10).toNat / 256 = 2 ∧
    (0x200#10).toNat % 256 = 0 ∧ (0x201#10).toNat / 256 = 2 ∧ (0x201#10).toNat % 256 ≠ 0 ∧
    (0x300#10).toNat / 256 = 3 := by decide

theorem test_hyp_StepPerformsAcceptedWord : ∃ s : State,
    s.input = .accept (encode (.illegal 0x3FF)) :: [] ∧ (Instr.illegal 0x3FF).wf = true :=
  ⟨facing (.accept 0x3FF) oneWaits, rfl, by decide⟩

theorem test_hyp_UnacceptedWordAndIdleHaveNoEffect :
    (facing (.wait 0x300) oneWaits).input = .wait 0x300 :: [] ∧ State.reset.input = [] := by decide

theorem test_hyp_ConsumerTakesBytesInOrder :
    (facing .take oneWaits).input = .take :: [] ∧ outData (facing .take oneWaits) = some 0x02 ∧
    outData (facing .take { oneWaits with taken := 1 }) = none := by decide

theorem test_hyp_ResetFromEveryState :
    (facing (.rst (some 0x008)) { oneWaits with phase := .err }).input = .rst (some 0x008) :: [] := by decide

theorem test_hyp_IllegalWordRaisesErrCmd :
    oneWaits.phase ≠ .err ∧ (facing (.accept 0x0FF) oneWaits).input = .accept 0x0FF :: [] ∧
    (0x300#10).toNat / 256 = 3 ∧ (0x3FF#10).toNat / 256 = 3 ∧
    ((0x010#10).toNat / 256 = 0 ∧ (0x010#10).toNat % 256 / 16 ≠ 0) ∧
    ((0x0FF#10).toNat / 256 = 0 ∧ (0x0FF#10).toNat % 256 / 16 ≠ 0) ∧
    ((0x201#10).toNat / 256 = 2 ∧ (0x201#10).toNat % 256 ≠ 0) ∧
    ((0x2FF#10).toNat / 256 = 2 ∧ (0x2FF#10).toNat % 256 ≠ 0) := by decide

theorem test_hyp_CommandOutOfSequenceRaisesErrSeq :
    oneWaits.phase = .run ∧ State.reset.phase = .idle ∧ { oneWaits with phase := .done }.phase = .done := by decide

theorem test_hyp_DepthOutsideRangeRaisesErrDepth :
    State.reset.phase = .idle ∧ (0#4).toNat < 2 ∧ (1#4).toNat < 2 ∧ 8 < (9#4).toNat ∧ 8 < (15#4).toNat := by decide

theorem test_hyp_PixelOutsidePaletteRaisesErrRange :
    oneWaits.phase = .run ∧ 2 ^ oneWaits.depth.toNat ≤ (4#8).toNat ∧ 2 ^ oneWaits.depth.toNat ≤ (255#8).toNat ∧
    ∃ t, exec (.pix 255) (tableState 0 9) = .next t ∧ (tableState 0 9).depth = 8 ∧ (tableState 0 9).phase = .run :=
  ⟨by decide, by decide, by decide, _, rfl, rfl, rfl⟩

theorem test_hyp_EmptyRasterRaisesErrEmpty :
    { oneWaits with havePrefix := false }.phase = .run ∧ { oneWaits with havePrefix := false }.havePrefix = false := by
  decide

theorem test_hyp_FaultingCommandHasNoOtherEffect : ∃ t, exec (.pix 4) oneWaits = .next t ∧ oneWaits.phase ≠ .err ∧
    t.phase = .err := ⟨_, rfl, by decide, by decide⟩

theorem test_hyp_ErrPhaseDiscardsEveryWord :
    (facing (.accept 0x002) { oneWaits with phase := .err, errcode := .range }).phase = .err ∧
    (facing (.accept 0x002) { oneWaits with phase := .err, errcode := .range }).input = .accept 0x002 :: [] := by decide

theorem test_hyp_OnlyResetLeavesErr :
    (∃ t, step (facing (.accept 0x002) { oneWaits with phase := .err, errcode := .range }) = .next t ∧ t.phase = .err) ∧
    (∃ t, step (facing (.rst none) { oneWaits with phase := .err, errcode := .range }) = .next t ∧ t.phase = .idle) :=
  ⟨⟨_, rfl, by decide⟩, ⟨_, rfl, by decide⟩⟩

theorem test_hyp_PhaseFollowsTransitionTable :
    (∃ t, step (facing (.accept 0x200) oneWaits) = .next t) ∧ (∃ t, step (facing (.rst none) oneWaits) = .next t) ∧
    (∃ t, step (facing .take oneWaits) = .next t) := ⟨⟨_, rfl⟩, ⟨_, rfl⟩, ⟨_, rfl⟩⟩

theorem test_hyp_StartOpensRaster :
    { oneWaits with phase := .err }.phase = .err ∧ oneWaits.phase = .run ∧ State.reset.phase = .idle ∧
    { oneWaits with phase := .done }.phase = .done ∧ (1#4).toNat < 2 ∧ 8 < (9#4).toNat ∧
    2 ≤ (2#4).toNat ∧ ¬ 7 ≤ (6#4).toNat ∧ 7 ≤ (7#4).toNat ∧ (8#4).toNat ≤ 8 := by decide

theorem test_hyp_FirstPixelWaitsInPrefix :
    { oneWaits with havePrefix := false }.phase = .run ∧ (3#8).toNat < 2 ^ oneWaits.depth.toNat ∧
    { oneWaits with havePrefix := false }.havePrefix = false := by decide

theorem test_hyp_KnownPairExtendsMatch :
    sixWaits.phase = .run ∧ (1#8).toNat < 2 ^ sixWaits.depth.toNat ∧ sixWaits.havePrefix = true ∧
    dictLookup sixWaits.prefixCode 1 sixWaits = some 7 := by decide

/-- The first insertion; the one at which `WIDTH` grows to 10; the one that takes code 4095. -/
theorem test_hyp_NovelPairEmitsThenInserts : ∀ x ∈ [(0, 9#4), (254, 9#4), (3837, 12#4)],
    RunInv (tableState x.1 x.2) ∧ (tableState x.1 x.2).phase = .run ∧
    (255#8).toNat < 2 ^ (tableState x.1 x.2).depth.toNat ∧ (tableState x.1 x.2).havePrefix = true ∧
    dictLookup (tableState x.1 x.2).prefixCode 255 (tableState x.1 x.2) = none ∧
    (tableState x.1 x.2).nextCode.toNat < 4096 := by
  intro x hx
  have hb : x.1 ≤ 3837 ∧ 9 ≤ x.2.toNat ∧ x.2.toNat ≤ 12 ∧ 258 + x.1 ≤ 2 ^ x.2.toNat ∧
      (9 < x.2.toNat → 2 ^ (x.2.toNat - 1) < 258 + x.1) := by
    fin_cases hx <;> decide
  obtain ⟨h1, h2, h3, h4, h5⟩ := hb
  refine ⟨tableState_inv (by omega) h2 h3 h4 h5, rfl,
    show (255#8).toNat < 2 ^ 8 by decide, rfl, tableState_absent (by omega) _ _, ?_⟩
  simp only [tableState, BitVec.toNat_ofNat]
  omega

theorem test_hyp_NovelPairAtFullTableClears :
    RunInv (tableState 3838 12) ∧ (tableState 3838 12).phase = .run ∧
    (0#8).toNat < 2 ^ (tableState 3838 12).depth.toNat ∧ (tableState 3838 12).havePrefix = true ∧
    dictLookup (tableState 3838 12).prefixCode 0 (tableState 3838 12) = none ∧
    (tableState 3838 12).nextCode.toNat = 4096 :=
  ⟨tableState_inv (by decide) (by decide) (by decide) (by decide) (by decide), rfl, by decide, rfl,
    tableState_absent (by decide) _ _, rfl⟩

theorem test_hyp_PixelFrame :
    sixWaits.phase = .run ∧ (3#8).toNat < 2 ^ sixWaits.depth.toNat ∧
    (∃ t, exec (.pix 2) sixWaits = .next t) ∧ dictLookup sixWaits.prefixCode 1 sixWaits ≠ none ∧
    sixWaits.nextCode.toNat < 4096 ∧ ¬ packStoresTo sixWaits (pixelBits 2 sixWaits) 0 := by
  refine ⟨by decide, by decide, ⟨_, rfl⟩, by decide, by decide, ?_⟩
  rintro ⟨j, hj, e⟩
  simp [sixWaits, pixelBits, dictLookup, Assoc.get, dictKey, codeLimit, Config.maxBits] at hj

theorem test_hyp_FinishCompletesRaster :
    { oneWaits with phase := .err }.phase = .err ∧ State.reset.phase = .idle ∧
    { oneWaits with havePrefix := false }.havePrefix = false ∧
    RunInv oneWaits ∧ oneWaits.phase = .run ∧ oneWaits.havePrefix = true :=
  ⟨by decide, by decide, by decide, oneWaits_inv, by decide, by decide⟩

/-- 253 bytes wait, all zero. -/
def almostFull : State := { State.reset with blk := (List.range 253).map fun i => (i, 0), blkcnt := 253, acc := 127, nacc := 7 }

theorem almostFull_written : PendingWritten almostFull := by
  intro i hi
  have hi : i < 253 := hi
  have : ∀ l : List Nat, i ∈ l → (Assoc.get (l.map fun i => (i, (0 : Byte))) i).isSome := by
    intro l
    induction l with
    | nil => simp
    | cons j l ih =>
      intro h
      by_cases e : i = j
      · simp [Assoc.get, e]
      · simpa [Assoc.get, e] using ih ((List.mem_cons.1 h).resolve_left e)
  exact this _ (List.mem_range.2 hi)

theorem test_hyp_PackBitsAppendsCodeBits :
    3 ≤ 12 ∧ 4095 < 2 ^ 12 ∧ 7 < 2 ^ 3 ∧ almostFull.nacc.toNat ≤ 7 ∧ almostFull.acc.toNat < 2 ^ almostFull.nacc.toNat ∧
    almostFull.blkcnt.toNat ≤ 253 := by decide

theorem test_hyp_PutByteFramesFullBlock :
    oneWaits.blkcnt.toNat < 253 ∧ almostFull.blkcnt.toNat = 253 := by decide

theorem test_hyp_FlushBlockWritesLengthThenBytes :
    oneWaits.blkcnt = 0 ∧ ({ almostFull with blkcnt := 254 } : State).blkcnt ≠ 0 ∧
    ({ almostFull with blkcnt := 254 } : State).blkcnt.toNat ≤ 254 := by decide

theorem test_hyp_WidthFollowsClosedFormula : RunInv (tableState 255 10) ∧ RunInv (tableState 254 9) :=
  ⟨tableState_inv (by decide) (by decide) (by decide) (by decide) (by decide),
    tableState_inv (by decide) (by decide) (by decide) (by decide) (by decide)⟩

theorem test_hyp_DictionaryIsExactMap : Dict.wf sixWaits.dict := by decide

theorem test_hyp_BlkStoreWritesOneElement : almostFull.blkcnt.toNat ≤ 253 ∧ Memory.wf sixWaits.blk ∧
    253 < { almostFull with blkcnt := 254 }.blkcnt.toNat := by decide

theorem test_hyp_EveryStepKeepsInvariants : StateInv (oneWaitsThen (.pix 1)) ∧ ∃ t, step (oneWaitsThen (.pix 1)) = .next t :=
  ⟨oneWaitsThen_stateInv _, _, rfl⟩

theorem test_hyp_RunStatesReachedFromResetSatisfyR37 : ∃ t,
    Sys2Proof.core.run 1 { State.reset with input := send [.start 2], emitMcs := false } = .next t ∧ t.phase = .run :=
  ⟨_, rfl, rfl⟩

/-- A raster is about to fill the buffer. -/
def fillsBuffer : State := { almostFull with phase := .run, depth := 2, havePrefix := true, width := 3, nextCode := 6 }

theorem test_hyp_UnspecifiedBlkIsNeverRead :
    PendingWritten State.reset ∧ (∃ t, exec (.start 8) State.reset = .next t) ∧
    PendingWritten fillsBuffer ∧ ∃ t, exec .finish fillsBuffer = .next t :=
  ⟨.of_empty rfl, ⟨_, rfl⟩, almostFull_written, _, rfl⟩

theorem test_hyp_InvariantStatesNeverStop : StateInv (oneWaitsThen .finish) := oneWaitsThen_stateInv _

theorem test_hyp_OutIsAppendOnlyAndNeverRead : ∃ t, exec .finish oneWaits = .next t ∧ t.out ≠ oneWaits.out :=
  ⟨_, rfl, by decide⟩

theorem test_hyp_CommandsLeaveTheWorldAlone : ∃ t, exec (.start 2) (oneWaitsThen .finish) = .next t := ⟨_, rfl⟩

theorem test_hyp_DepthWrittenOnlyByStartAndReset :
    (∃ t, step (facing (.rst none) oneWaits) = .next t ∧ t.depth ≠ (facing (.rst none) oneWaits).depth) ∧
    (∃ t, step (facing (.accept 0x008) State.reset) = .next t ∧ t.depth ≠ (facing (.accept 0x008) State.reset).depth) :=
  ⟨⟨_, rfl, by decide⟩, ⟨_, rfl, by decide⟩⟩

/-- A novel pair in the full table: the machine answers. -/
theorem tableState_full_next : ∃ t, exec (.pix 0) (tableState 3838 12) = .next t := by
  have h : exec (.pix 0) (tableState 3838 12) = novelPair 0 (tableState 3838 12) := by
    show execPix 0 (tableState 3838 12) = _
    unfold execPix consumePixel
    rw [tableState_absent (by decide)]
    rfl
  exact ⟨_, h.trans rfl⟩

theorem test_hyp_NextCodeRisesByOneOrRestarts :
    RunInv oneWaits ∧ oneWaits.phase = .run ∧ (∃ t, exec (.pix 1) oneWaits = .next t ∧ t.nextCode = 7) ∧
    RunInv (tableState 3838 12) ∧ (tableState 3838 12).phase = .run ∧
    ∃ t, exec (.pix 0) (tableState 3838 12) = .next t :=
  ⟨oneWaits_inv, by decide, ⟨_, rfl, rfl⟩,
    tableState_inv (by decide) (by decide) (by decide) (by decide) (by decide), rfl, tableState_full_next⟩

theorem test_hyp_WorkPerCommandIsBounded :
    (∃ t, exec (.start 8) State.reset = .next t ∧ State.reset.phase = .idle) ∧
    (RunInv oneWaits ∧ oneWaits.phase = .run ∧ ∃ t, exec (.pix 1) oneWaits = .next t) ∧
    (∃ t, exec .finish oneWaits = .next t ∧ t.phase = .done) :=
  ⟨⟨_, rfl, rfl⟩, ⟨oneWaits_inv, rfl, _, rfl⟩, ⟨_, rfl, rfl⟩⟩

/-- A state that the host is about to feed. -/
def fed (is : List Instr) : State := { State.reset with input := send is }

theorem test_hyp_RasterInProgressMatchesReference :
    (fed (.start 2 :: [1, 3].map .pix)).phase = .idle ∧ (fed (.start 2 :: [1, 3].map .pix)).errcode = .none ∧
    2 ≤ (2#4).toNat ∧ (8#4).toNat ≤ 8 ∧ (∀ p ∈ [1#8, 3#8], p.toNat < 2 ^ (2#4).toNat) ∧
    (fed (.start 2 :: [1, 3].map .pix)).input = send (.start 2 :: [1, 3].map .pix) ++ [] := by decide

theorem test_hyp_RasterAppendsExactlyCompress :
    (fed (rasterCommands 8 [0, 255])).phase = .idle ∧ (fed (rasterCommands 8 [0, 255])).errcode = .none ∧
    [0#8, 255#8] ≠ [] ∧ (∀ p ∈ [0#8, 255#8], p.toNat < 2 ^ (8#4).toNat) ∧
    (fed (rasterCommands 8 [0, 255])).input = send (rasterCommands 8 [0, 255]) ++ [] := by decide

theorem test_hyp_BackToBackRastersAreIndependent :
    { fed (rasterCommands 8 [40] ++ rasterCommands 2 [3]) with phase := .done }.phase = .done ∧
    { fed (rasterCommands 8 [40] ++ rasterCommands 2 [3]) with phase := .done }.errcode = .none ∧
    [40#8] ≠ [] ∧ (∀ p ∈ [40#8], p.toNat < 2 ^ (8#4).toNat) ∧ [3#8] ≠ [] ∧ (∀ p ∈ [3#8], p.toNat < 2 ^ (2#4).toNat) ∧
    (fed (rasterCommands 8 [40] ++ rasterCommands 2 [3])).input =
      send (rasterCommands 8 [40] ++ rasterCommands 2 [3]) ++ [] := by decide

/-- The hypotheses of the statements about the functional summary, at both ends of the depth's range. -/
theorem test_hyp_DecoderReturnsTheRaster : 2 ≤ 8 ∧ [255] ≠ ([] : List Nat) ∧ (∀ p ∈ [255], p < 2 ^ 8) ∧
    [3] ≠ ([] : List Nat) ∧ (∀ p ∈ [3], p < 2 ^ 2) := by decide

theorem test_hyp_CodeStreamHasItsGrammar : 2 ≤ 2 ∧ [3, 0] ≠ ([] : List Nat) ∧ (∀ p ∈ [3, 0], p < 2 ^ 2) := by decide

theorem test_hyp_CompressedRasterHasItsLayout : 2 ≤ 8 ∧ [0, 255] ≠ ([] : List Nat) ∧ (∀ p ∈ [0, 255], p < 2 ^ 8) := by
  decide

end Sys2Proof.Tests
end

section
/-! PROOF. What a command answers, over all instructions at once, and what every answer leaves
alone (40_dictionary_builder.md R110 to R116; 60_exceptions.md R171, R178). -/

namespace Sys2Proof.Machine

/-- The answers of an instruction, one constructor for each of the ways in which a command ends: the word discarded, a
fault raised, `START` performed, the cases A, B, C1 and C2 of `PIX`, and `FINISH` performed. -/
inductive Answers (s : State) : Instr → State → Prop
  /-- R178. -/
  | discarded {i : Instr} (phase : s.phase = .err) : Answers s i s
  /-- R171. -/
  | raised {i : Instr} (e : ErrCode) (fault : e ≠ .none) (phase : s.phase ≠ .err) : Answers s i (raise e s)
  /-- R110. -/
  | started {d : DepthField} {t : State} (phase : s.phase = .idle ∨ s.phase = .done) (legal : 2 ≤ d.toNat ∧ d.toNat ≤ 8)
      (packed : packBits (2 ^ d.toNat) (d.toNat + 1) (emitMinCodeSize (startRegisters d s)) = .next t) :
      Answers s (.start d) t
  /-- R113 case A. -/
  | first {p : Pixel} (phase : s.phase = .run) (palette : p.toNat < 2 ^ s.depth.toNat) (empty : s.havePrefix = false) :
      Answers s (.pix p) { setPrefix (literalCode p) s with havePrefix := true }
  /-- R113 case B. -/
  | known {p : Pixel} {c : Code} (phase : s.phase = .run) (palette : p.toNat < 2 ^ s.depth.toNat)
      (waits : s.havePrefix = true) (found : dictLookup s.prefixCode p s = some c) : Answers s (.pix p) (setPrefix c s)
  /-- R113 case C1. -/
  | entered {p : Pixel} {u : State} (phase : s.phase = .run) (palette : p.toNat < 2 ^ s.depth.toNat)
      (waits : s.havePrefix = true) (absent : dictLookup s.prefixCode p s = none) (room : s.nextCode.toNat < 4096)
      (packed : packBits s.prefixCode.toNat s.width.toNat s = .next u) :
      Answers s (.pix p) (setPrefix (literalCode p) (extendDict s.prefixCode p (widthUpdate u)))
  /-- R113 case C2. -/
  | cleared {p : Pixel} {u v : State} (phase : s.phase = .run) (palette : p.toNat < 2 ^ s.depth.toNat)
      (waits : s.havePrefix = true) (absent : dictLookup s.prefixCode p s = none) (full : 4096 ≤ s.nextCode.toNat)
      (packed : packBits s.prefixCode.toNat s.width.toNat s = .next u)
      (clear : packBits (clearCode s.depth) (widthUpdate s).width.toNat (widthUpdate u) = .next v) :
      Answers s (.pix p) (setPrefix (literalCode p) (freshTable v))
  /-- R116. -/
  | finished {u v x y : State} (phase : s.phase = .run) (waits : s.havePrefix = true)
      (packed : packBits s.prefixCode.toNat s.width.toNat s = .next u)
      (eoi : packBits (eoiCode s.depth) (widthUpdate s).width.toNat (widthUpdate u) = .next v)
      (drained : drain v = .next x) (flushed : flushBlock x = .next y) :
      Answers s .finish { terminate y with havePrefix := false, phase := .done }

/-- Every next state of an instruction is one of its answers. -/
theorem exec_answers {i : Instr} {s t : State} (h : exec i s = .next t) : Answers s i t := by
  have hrun : s.phase = .run → s.phase ≠ .err := fun hp => by simp [hp]
  cases i with
  | start d =>
    rcases execStart_next h with ⟨hp, rfl⟩ | ⟨hp, rfl⟩ | ⟨hp, -, rfl⟩ | ⟨hp, h2, h8, hk⟩
    · exact .discarded hp
    · exact .raised .seq (by decide) (hrun hp)
    · exact .raised .depth (by decide) (by rcases hp with hp | hp <;> simp [hp])
    · exact .started hp ⟨h2, h8⟩ hk
  | pix p =>
    rcases execPix_next h with ⟨hp, rfl⟩ | ⟨hp, -, rfl⟩ | ⟨hp, -, rfl⟩ |
      ⟨hp, hlt, ⟨hh, rfl⟩ | ⟨hh, c, hc, rfl⟩ | ⟨hh, hl, hn⟩⟩
    · exact .discarded hp
    · exact .raised .seq (by decide) hp
    · exact .raised .range (by decide) (hrun hp)
    · exact .first hp hlt hh
    · exact .known hp hlt hh hc
    · obtain ⟨u, hu, ⟨hroom, rfl⟩ | ⟨hfull, v, hv, rfl⟩⟩ := novelPair_next hn
      · exact .entered hp hlt hh hl hroom hu
      · exact .cleared hp hlt hh hl hfull hu hv
  | finish =>
    rcases execFinish_next h with ⟨hp, rfl⟩ | ⟨hp, -, rfl⟩ | ⟨hp, -, rfl⟩ | ⟨hp, hh, u, v, x, y, hu, hv, hx, hy, rfl⟩
    · exact .discarded hp
    · exact .raised .seq (by decide) hp
    · exact .raised .empty (by decide) (hrun hp)
    · exact .finished hp hh hu hv hx hy
  | illegal w =>
    rcases execIllegal_next w h with ⟨hp, rfl⟩ | ⟨hp, rfl⟩
    · exact .discarded hp
    · exact .raised .cmd (by decide) hp

/-- The fields that only the world and the build write. -/
theorem Answers.world {i : Instr} {s t : State} (h : Answers s i t) :
    t.input = s.input ∧ t.taken = s.taken ∧ t.emitMcs = s.emitMcs ∧ t.resets = s.resets := by
  cases h with
  | discarded => simp
  | raised e => simp
  | started _ _ hk =>
    obtain ⟨-, -, -, -, -, -, -, -, htaken, hinput, hmcs, hresets⟩ := startRaster_fields hk
    exact ⟨hinput, htaken, hmcs, hresets⟩
  | first => simp
  | known => simp
  | entered _ _ _ _ _ hu =>
    obtain ⟨-, -, -, -, -, -, -, -, htaken, hinput, hmcs, hresets⟩ := (packBits_only hu).fields
    simp [htaken, hinput, hmcs, hresets]
  | cleared _ _ _ _ _ hu hv =>
    obtain ⟨-, -, -, -, -, -, -, -, htaken, hinput, hmcs, hresets⟩ := (packBits_only hu).fields
    obtain ⟨-, -, -, -, -, -, -, -, htaken', hinput', hmcs', hresets'⟩ := (packBits_only hv).fields
    simp [htaken, hinput, hmcs, hresets, htaken', hinput', hmcs', hresets']
  | finished _ _ hu hv hx hy =>
    obtain ⟨-, -, -, -, -, -, htaken, hinput, hmcs, hresets⟩ := finishRaster_fields hu hv hx hy
    exact ⟨hinput, htaken, hmcs, hresets⟩

/-- The control registers: a fault, a raster opened, a raster that goes on, a raster completed. -/
theorem Answers.control {i : Instr} {s t : State} (h : Answers s i t) :
    (t = s ∨ ∃ e, e ≠ .none ∧ t = raise e s) ∨
    t.errcode = s.errcode ∧
      ((∃ d, i = .start d ∧ (s.phase = .idle ∨ s.phase = .done) ∧ (2 ≤ d.toNat ∧ d.toNat ≤ 8) ∧ t.phase = .run ∧
          t.depth = d) ∨
        (s.phase = .run ∧ t.depth = s.depth ∧
          (t.phase = .run ∨ t.phase = .done ∧ t.havePrefix = false))) := by
  cases h with
  | discarded => exact .inl (.inl rfl)
  | raised e he => exact .inl (.inr ⟨e, he, rfl⟩)
  | started hp hd hk =>
    obtain ⟨hphase, herr, hdepth, -⟩ := startRaster_fields hk
    exact .inr ⟨herr, .inl ⟨_, rfl, hp, hd, hphase, hdepth⟩⟩
  | first hp => exact .inr ⟨rfl, .inr ⟨hp, rfl, .inl hp⟩⟩
  | known hp => exact .inr ⟨rfl, .inr ⟨hp, rfl, .inl hp⟩⟩
  | entered hp _ _ _ _ hu =>
    obtain ⟨hphase, herr, hdepth, -⟩ := (packBits_only hu).fields
    simp [hphase, herr, hdepth, hp]
  | cleared hp _ _ _ _ hu hv =>
    obtain ⟨hphase, herr, hdepth, -⟩ := (packBits_only hu).fields
    obtain ⟨hphase', herr', hdepth', -⟩ := (packBits_only hv).fields
    simp [hphase, herr, hdepth, hphase', herr', hdepth', hp]
  | finished hp _ hu hv hx hy =>
    obtain ⟨herr, hdepth, -⟩ := finishRaster_fields hu hv hx hy
    exact .inr ⟨herr, .inr ⟨hp, hdepth, .inr ⟨rfl, rfl⟩⟩⟩

/-! ## What no answer breaks in the storage -/

/-- `BLK`'s canonical form stays, and `OUT` grows at its end only. -/
structure StorageKept (s t : State) : Prop where
  blk_wf : Memory.wf s.blk → Memory.wf t.blk
  out_prefix : s.out <+: t.out

theorem StorageKept.of_same {s t : State} (hb : t.blk = s.blk) (ho : t.out = s.out) : StorageKept s t :=
  ⟨fun h => hb ▸ h, ho ▸ List.prefix_refl _⟩

theorem StorageKept.trans {s t u : State} (h : StorageKept s t) (k : StorageKept t u) : StorageKept s u :=
  ⟨fun hw => k.blk_wf (h.blk_wf hw), h.out_prefix.trans k.out_prefix⟩

theorem StoredAtMost.kept {s t : State} {k : Nat} (h : StoredAtMost s t k) : StorageKept s t :=
  ⟨h.blk_wf, let ⟨bs, e⟩ := h.out_grows; ⟨bs, e.symm⟩⟩

theorem packBits_kept {c w : Nat} {s t : State} (h : packBits c w s = .next t) : StorageKept s t :=
  (packBits_next h).2.1.kept

theorem drain_kept {s t : State} (hn : s.nacc.toNat ≤ 8) (h : drain s = .next t) : StorageKept s t :=
  (drain_next hn h).kept

theorem flushBlock_kept {s t : State} (h : flushBlock s = .next t) : StorageKept s t := by
  rw [flushBlock_eq (flushBlock_bound h)] at h
  injection h with h
  rw [← h]
  exact ⟨id, List.prefix_append ..⟩

/-- A packing, with updates before and after it that leave `BLK` and `OUT` as they are. -/
theorem packBits_kept_between {c w : Nat} {s u v t : State} (h : packBits c w u = .next v) (hb : u.blk = s.blk)
    (ho : s.out <+: u.out) (hb' : t.blk = v.blk) (ho' : t.out = v.out) : StorageKept s t :=
  StorageKept.trans ⟨fun hw => hb ▸ hw, ho⟩ ((packBits_kept h).trans (.of_same hb' ho'))

theorem Answers.storage {i : Instr} {s t : State} (h : Answers s i t) : StorageKept s t := by
  cases h with
  | discarded => exact .of_same rfl rfl
  | raised e => exact .of_same rfl rfl
  | started _ _ hk =>
    exact packBits_kept_between hk (by simp) (by rw [emitMinCodeSize_out]; exact List.prefix_append ..) rfl rfl
  | first => exact .of_same rfl rfl
  | known => exact .of_same rfl rfl
  | entered _ _ _ _ _ hu => exact packBits_kept_between hu rfl (List.prefix_refl _) (by simp) (by simp)
  | cleared _ _ _ _ _ hu hv =>
    exact (packBits_kept hu).trans (packBits_kept_between hv (by simp) (by simp) (by simp) (by simp))
  | @finished _ v _ _ _ _ hu hv hx hy =>
    have hn : v.nacc.toNat ≤ 8 := by have := (packBits_next hv).2.2; omega
    have hpack := (packBits_kept hu).trans (packBits_kept_between hv (by simp) (by simp) rfl rfl)
    exact (hpack.trans ((drain_kept hn hx).trans (flushBlock_kept hy))).trans ⟨id, List.prefix_append ..⟩

theorem Answers.dict_wf {i : Instr} {s t : State} (h : Answers s i t) (hs : Dict.wf s.dict) : Dict.wf t.dict := by
  have hempty : Dict.wf [] := ⟨.nil, by simp⟩
  cases h with
  | discarded => exact hs
  | raised e => exact hs
  | started _ _ hk =>
    obtain ⟨-, -, -, -, -, hdict, -⟩ := startRaster_fields hk
    exact hdict ▸ hempty
  | first => exact hs
  | known => exact hs
  | entered _ _ _ _ _ hu =>
    obtain ⟨-, -, -, -, -, -, -, hdict, -⟩ := (packBits_only hu).fields
    refine Dict.wf_put _ _ _ ?_
    simpa [hdict] using hs
  | cleared => exact hempty
  | finished _ _ hu hv hx hy =>
    obtain ⟨-, -, -, -, -, hdict, -⟩ := finishRaster_fields hu hv hx hy
    exact hdict.symm ▸ hs

end Sys2Proof.Machine
end

section
/-! PROOF. No operation reads what `BLK` held before anything was stored there (10_state.md
R31, R38; 20_memory.md R55): each does the same whichever reset's free values stand in `BLK`. -/

namespace Sys2Proof.Machine

/-- The state with the free values of the reset numbered `n` in `BLK`. -/
def withResets (n : Nat) (s : State) : State := { s with resets := n }

/-- The two answers differ in the number of resets alone, and no waiting element of `BLK` is a free value. A stop on the
left asks nothing of the right. -/
def SameButResets (n : Nat) (r r' : Result) : Prop :=
  ∀ t, r = .next t → PendingWritten t ∧ r' = .next (withResets n t)

variable {n : Nat} {s : State}

theorem SameButResets.next (h : PendingWritten s) : SameButResets n (.next s) (.next (withResets n s)) := by
  rintro t ⟨⟩
  exact ⟨h, rfl⟩

theorem SameButResets.fault (e : Fault) (r : Result) : SameButResets n (.fault e) r := nofun

theorem SameButResets.andThen {r r' : Result} {f g : State → Result} (h : SameButResets n r r')
    (k : ∀ t, PendingWritten t → SameButResets n (f t) (g (withResets n t))) :
    SameButResets n (andThen r f) (andThen r' g) := by
  intro t ht
  obtain ⟨u, hu, hf⟩ := andThen_next_iff.1 ht
  obtain ⟨hw, hr⟩ := h u hu
  obtain ⟨hwt, hg⟩ := k u hw t hf
  exact ⟨hwt, by rw [hr]; exact hg⟩

/-- A test that does not look at the number of resets takes the same branch. -/
theorem SameButResets.ite {c : Prop} [Decidable c] {a b a' b' : Result} (ht : c → SameButResets n a a')
    (he : ¬ c → SameButResets n b b') : SameButResets n (if c then a else b) (if c then a' else b') := by
  split
  · exact ht ‹_›
  · exact he ‹_›

theorem SameButResets.whenLegal {legal : List Phase} {k k' : Result} (h : PendingWritten s)
    (hk : SameButResets n k k') :
    SameButResets n (whenLegal legal s k) (whenLegal legal (withResets n s) k') :=
  .ite (fun _ => .next h) fun _ => .ite (fun _ => hk) fun _ => .next h

/-- The bytes that wait are the stored ones, whatever the free values. -/
theorem pendingBytes_withResets (h : PendingWritten s) (n : Nat) : pendingBytes (withResets n s) = pendingBytes s := by
  refine List.map_congr_left fun i hi => ?_
  obtain ⟨b, hb⟩ := Option.isSome_iff_exists.1 (h i (List.mem_range.1 hi))
  simp [blkRead, withResets, hb]

/-! ## The bit packer -/

theorem flushBlock_withResets (h : PendingWritten s) : SameButResets n (flushBlock s) (flushBlock (withResets n s)) := by
  unfold flushBlock
  rw [pendingBytes_withResets h]
  exact .ite (fun _ => .next h) fun _ => .ite (fun _ => .next (.of_empty rfl)) fun _ => .fault _ _

theorem blkStore_withResets (b : Byte) (h : PendingWritten s) :
    SameButResets n (blkStore b s) (blkStore b (withResets n s)) := by
  refine .ite (fun hlt => .next (h.store rfl ?_)) fun _ => .fault _ _
  have : s.blkcnt.toNat < 254 := hlt
  show (s.blkcnt + 1).toNat = _
  rw [BitVec.toNat_add]; simp; omega

theorem putByte_withResets (b : Byte) (h : PendingWritten s) :
    SameButResets n (putByte b s) (putByte b (withResets n s)) :=
  (blkStore_withResets b h).andThen fun _ ht => .ite (fun _ => flushBlock_withResets ht) fun _ => .next ht

theorem packLoop_withResets (k : Nat) : ∀ {s : State}, PendingWritten s →
    SameButResets n (packLoop k s) (packLoop k (withResets n s)) := by
  induction k with
  | zero => exact fun h => .next h
  | succ k ih =>
    exact fun h => .ite (fun _ => (putByte_withResets _ h).andThen fun t ht =>
      ih (s := { t with acc := t.acc >>> 8, nacc := t.nacc - 8 }) ht) fun _ => .next h

theorem packBits_withResets (c w : Nat) (h : PendingWritten s) :
    SameButResets n (packBits c w s) (packBits c w (withResets n s)) :=
  .ite (fun _ => packLoop_withResets _ (s := { s with
      acc := BitVec.ofNat 19 (s.acc.toNat + c <<< s.nacc.toNat), nacc := BitVec.ofNat 5 (s.nacc.toNat + w) }) h)
    fun _ => .fault _ _

theorem drain_withResets (h : PendingWritten s) : SameButResets n (drain s) (drain (withResets n s)) :=
  .ite (fun _ => (putByte_withResets _ h).andThen fun t ht => .next (s := { t with acc := 0, nacc := 0 }) ht)
    fun _ => .next h

/-! ## The code writer -/

theorem widthUpdate_withResets (n : Nat) (s : State) : widthUpdate (withResets n s) = withResets n (widthUpdate s) := by
  unfold widthUpdate
  rw [apply_ite (withResets n)]
  rfl

theorem emitCode_withResets (c : Code) (h : PendingWritten s) :
    SameButResets n (emitCode c s) (emitCode c (withResets n s)) :=
  (packBits_withResets _ _ h).andThen fun t ht => by
    rw [widthUpdate_withResets]
    exact .next (ht.congr (by simp) (by simp))

theorem clearAndReset_withResets (h : PendingWritten s) :
    SameButResets n (clearAndReset s) (clearAndReset (withResets n s)) :=
  (packBits_withResets _ _ h).andThen fun t ht => .next (s := freshTable t) ht

/-! ## The commands -/

theorem emitMinCodeSize_withResets (n : Nat) (s : State) :
    emitMinCodeSize (withResets n s) = withResets n (emitMinCodeSize s) := by
  unfold emitMinCodeSize
  rw [apply_ite (withResets n)]
  rfl

theorem execStart_withResets (d : DepthField) (h : PendingWritten s) :
    SameButResets n (execStart d s) (execStart d (withResets n s)) := by
  refine .whenLegal h (.ite (fun _ => ?_) fun _ => .next h)
  have hstart := packBits_withResets (n := n) (clearCode d) (initWidth d)
    (s := emitMinCodeSize (startRegisters d s)) (.of_empty (by simp))
  rwa [← emitMinCodeSize_withResets] at hstart

theorem novelPair_withResets (p : Pixel) (h : PendingWritten s) :
    SameButResets n (novelPair p s) (novelPair p (withResets n s)) :=
  (emitCode_withResets _ h).andThen fun t ht =>
    .andThen (.ite (fun _ => .next (s := extendDict s.prefixCode p t) ht) fun _ => clearAndReset_withResets ht)
      fun u hu => .next (s := setPrefix (literalCode p) u) hu

theorem consumePixel_withResets (p : Pixel) (h : PendingWritten s) :
    SameButResets n (consumePixel p s) (consumePixel p (withResets n s)) := by
  refine .ite (fun _ => ?_) fun _ => .next (s := { setPrefix (literalCode p) s with havePrefix := true }) h
  rw [show dictLookup (withResets n s).prefixCode p (withResets n s) = dictLookup s.prefixCode p s from rfl]
  cases dictLookup s.prefixCode p s with
  | some c => exact .next (s := setPrefix c s) h
  | none => exact novelPair_withResets p h

theorem execPix_withResets (p : Pixel) (h : PendingWritten s) :
    SameButResets n (execPix p s) (execPix p (withResets n s)) :=
  .whenLegal h (.ite (fun _ => consumePixel_withResets p h) fun _ => .next h)

theorem finishRaster_withResets (h : PendingWritten s) :
    SameButResets n (finishRaster s) (finishRaster (withResets n s)) :=
  (emitCode_withResets _ h).andThen fun _ ht =>
    (packBits_withResets _ _ ht).andThen fun _ hu =>
      (drain_withResets hu).andThen fun _ hv =>
        (flushBlock_withResets hv).andThen fun x hx =>
          .next (s := { terminate x with havePrefix := false, phase := .done }) hx

theorem execFinish_withResets (h : PendingWritten s) :
    SameButResets n (execFinish s) (execFinish (withResets n s)) :=
  .whenLegal h (.ite (fun _ => finishRaster_withResets h) fun _ => .next h)

theorem execIllegal_withResets (w : CmdWord) (h : PendingWritten s) :
    SameButResets n (execIllegal w s) (execIllegal w (withResets n s)) :=
  .ite (fun _ => .next h) fun _ => .next (s := raise .cmd s) h

theorem exec_withResets (i : Instr) (n : Nat) (h : PendingWritten s) :
    SameButResets n (exec i s) (exec i (withResets n s)) := by
  cases i with
  | start d => exact execStart_withResets d h
  | pix p => exact execPix_withResets p h
  | finish => exact execFinish_withResets h
  | illegal w => exact execIllegal_withResets w h

/-- Every waiting element of `BLK` stays a stored one. -/
theorem exec_pendingWritten {i : Instr} {s t : State} (h : PendingWritten s) (ht : exec i s = .next t) :
    PendingWritten t := (exec_withResets i 0 h t ht).1

end Sys2Proof.Machine

open Sys2Proof Sys2Proof.Machine

/-- Settles O48, operation by operation: only waiting bytes are read, each of them a stored one, so both runs answer
alike. -/
theorem unspecifiedBlkIsNeverRead : Obligations.UnspecifiedBlkIsNeverRead := by
  intro i s t hs ht
  exact ⟨exec_pendingWritten hs ht,
    fun n => (exec_withResets i n hs t ht).2⟩
end

section
/-! PROOF. Every step keeps `StateInv`, so every state reached from reset satisfies it
(10_state.md R37). -/

namespace Sys2Proof.Machine

/-! ## The state after reset -/

/-- A block with nothing stored, nothing produced and no raster begun satisfies the invariants, whatever else it holds. -/
theorem StateInv.of_cleared {s : State} (hphase : s.phase = .idle) (herr : s.errcode = .none)
    (hpre : s.havePrefix = false) (hblk : s.blk = []) (hcnt : s.blkcnt = 0) (hdict : s.dict = []) (htaken : s.taken = 0) :
    StateInv s where
  blk_wf := hblk.symm ▸ ⟨.nil, by simp⟩
  dict_wf := hdict.symm ▸ ⟨.nil, by simp⟩
  taken_le := by simp [htaken]
  errcode_iff := by simp [hphase, herr]
  prefix_phase := by simp [hpre]
  pending_written := .of_empty hcnt
  running := by simp [hphase]

/-- R24. -/
theorem StateInv.no_error {s : State} (h : StateInv s) (hp : s.phase ≠ .err) : s.errcode = .none :=
  not_not.1 fun he => hp (h.errcode_iff.2 he)

/-! ## The events that are no command -/

/-- R37 says nothing of the ports. -/
theorem RunInv.with_ports {s : State} (h : RunInv s) (input : List PortEvent) (taken : Nat) :
    RunInv { s with input := input, taken := taken } := { h with }

theorem StateInv.with_ports {s : State} (h : StateInv s) (input : List PortEvent) {taken : Nat}
    (hle : taken ≤ s.out.length) : StateInv { s with input := input, taken := taken } :=
  { h with taken_le := hle, running := fun hp => (h.running hp).with_ports input taken }

theorem StateInv.consumerTake {s : State} (h : StateInv s) : StateInv (consumerTake s) := by
  unfold Machine.consumerTake
  split
  · exact h.with_ports s.input (of_decide_eq_true ‹_›)
  · exact h

/-! ## The commands -/

/-- A packing that answers leaves the packer as R37 items 9 and 10 ask. -/
theorem PackerReady.packBits {c w : Nat} {s t : State} (h : PackerReady s) (hw : w ≤ 12) (hc : c < 2 ^ w)
    (ht : packBits c w s = .next t) : PackerReady t := by
  obtain ⟨u, hu, -, hready⟩ := packBits_ready h hw hc
  rw [hu] at ht
  injection ht with ht
  exact ht ▸ hready

/-- After a packing and the width update, the packer is still in order. -/
theorem PackerReady.widthUpdate {s : State} (h : PackerReady s) : PackerReady (widthUpdate s) :=
  h.congr (by simp) (by simp) (by simp)

/-- R110: `START` establishes R37. -/
theorem RunInv.of_start {d : DepthField} {s t : State} (herr : s.errcode = .none) (hd : 2 ≤ d.toNat ∧ d.toNat ≤ 8)
    (hk : packBits (2 ^ d.toNat) (d.toNat + 1) (emitMinCodeSize (startRegisters d s)) = .next t) : RunInv t := by
  obtain ⟨-, herr', hdepth, hpre, -, hdict, hnext, hwidth, -⟩ := startRaster_fields hk
  have hfits : 2 ^ d.toNat < 2 ^ (d.toNat + 1) := Nat.pow_lt_pow_right (by decide) (by omega)
  exact .of_fresh (s := t) (hdepth ▸ hd) ((startRegisters_ready d s).packBits (by omega) hfits hk) rfl hdict
    (hdepth ▸ hnext) (hdepth ▸ hwidth) (by simp [hpre]) (herr'.trans herr)

/-- R113 case C2, R134: the table reset re-establishes R37. -/
theorem RunInv.of_clear {p : Pixel} {s u v : State} (h : RunInv s) (hp : p.toNat < 2 ^ s.depth.toNat)
    (hh : s.havePrefix = true) (hfull : 4096 ≤ s.nextCode.toNat)
    (hu : packBits s.prefixCode.toNat s.width.toNat s = .next u)
    (hv : packBits (clearCode s.depth) (widthUpdate s).width.toNat (widthUpdate u) = .next v) :
    RunInv (setPrefix (literalCode p) (freshTable v)) := by
  obtain ⟨-, herr, hdepth, -⟩ := (packBits_only hu).fields
  obtain ⟨-, herr', hdepth', -⟩ := (packBits_only hv).fields
  have hd : v.depth = s.depth := hdepth'.trans ((widthUpdate_depth u).trans hdepth)
  have he : v.errcode = .none := herr'.trans ((widthUpdate_errcode u).trans (herr.trans h.no_error))
  have hready := h.packer.packBits h.width_le (h.prefix_fits hh) hu
  rw [h.widthUpdate_of_full hfull] at hv
  refine .of_fresh (s := v) (hd ▸ h.depth_range) ?_ rfl rfl rfl rfl (fun _ => ?_) he
  · exact (hready.widthUpdate.packBits (by omega) h.clear_fits hv).congr rfl rfl rfl
  · rwa [setPrefix_prefixCode, literalCode_toNat, hd]

/-- Every answer in phase `RUN` satisfies R37. -/
theorem Answers.runInv {i : Instr} {s t : State} (h : Answers s i t) (hs : StateInv s) (ht : t.phase = .run) :
    RunInv t := by
  cases h with
  | discarded => exact hs.running ht
  | raised e => cases ht
  | started hp hd hk =>
    have hne : s.phase ≠ .err := by rcases hp with hp | hp <;> simp [hp]
    exact .of_start (hs.no_error hne) hd hk
  | first hp hlt => exact (hs.running hp).move_prefix ⟨_, true, rfl⟩ ((hs.running hp).literal_known hlt)
  | @known _ c hp _ _ hc => exact (hs.running hp).move_prefix ⟨c, s.havePrefix, rfl⟩ ((hs.running hp).entry_known hc)
  | entered hp hlt hh hl hroom hu =>
    have hr := hs.running hp
    exact hr.insert hh hlt hl hroom (packBits_only hu) (hr.packer.packBits hr.width_le (hr.prefix_fits hh) hu)
  | cleared hp hlt hh _ hfull hu hv => exact (hs.running hp).of_clear hlt hh hfull hu hv
  | finished => cases ht

theorem StateInv.raise {s : State} (h : StateInv s) {e : ErrCode} (he : e ≠ .none) : StateInv (raise e s) :=
  { h with
    errcode_iff := by simpa using he
    prefix_phase := fun _ => .inr rfl
    running := nofun }

/-- A command keeps the invariants. -/
theorem StateInv.exec {i : Instr} {s t : State} (h : StateInv s) (ht : exec i s = .next t) : StateInv t := by
  have ha := exec_answers ht
  rcases ha.control with (rfl | ⟨e, he, rfl⟩) | ⟨herr, hphase⟩
  · exact h
  · exact h.raise he
  · obtain ⟨-, htaken, -⟩ := ha.world
    have hne : s.phase ≠ .err := by rcases hphase with ⟨d, -, hp | hp, -⟩ | ⟨hp, -⟩ <;> simp [hp]
    have hp : t.phase = .run ∨ t.phase = .done ∧ t.havePrefix = false := by
      rcases hphase with ⟨d, -, -, -, hp, -⟩ | ⟨-, -, hp⟩
      · exact .inl hp
      · exact hp
    exact
      { blk_wf := ha.storage.blk_wf h.blk_wf
        dict_wf := ha.dict_wf h.dict_wf
        taken_le := by rw [htaken]; exact h.taken_le.trans ha.storage.out_prefix.length_le
        errcode_iff := by rcases hp with hp | ⟨hp, -⟩ <;> simp [hp, herr, h.no_error hne]
        prefix_phase := by rcases hp with hp | ⟨-, hpre⟩ <;> simp [*]
        pending_written := exec_pendingWritten h.pending_written ht
        running := ha.runInv h }

/-! ## Steps and runs -/

theorem StateInv.step {s t : State} (h : StateInv s) (ht : step s = .next t) : StateInv t := by
  have hpast : ∀ rest, StateInv { s with input := rest } := fun rest => h.with_ports rest h.taken_le
  rcases step_next ht with ⟨-, rfl⟩ | ⟨w, rest, -, hx⟩ | ⟨w, rest, -, rfl⟩ | ⟨rest, -, rfl⟩ | ⟨o, rest, -, rfl⟩
  · exact h
  · exact (hpast rest).exec hx
  · exact hpast rest
  · exact (hpast rest).consumerTake
  · exact .of_cleared rfl rfl rfl rfl rfl rfl rfl

theorem StateInv.run (n : Nat) {s t : State} (h : StateInv s) (ht : Sys2Proof.core.run n s = .next t) : StateInv t := by
  induction n generalizing s with
  | zero => cases ht; exact h
  | succ n ih =>
    cases hs : Machine.step s with
    | next u => exact ih (h.step hs) (by simpa [Host.Core.run, Sys2Proof.core, hs] using ht)
    | fault e => simp [Host.Core.run, Sys2Proof.core, hs] at ht
    | refused e => simp [Host.Core.run, Sys2Proof.core, hs] at ht

end Sys2Proof.Machine

open Sys2Proof Sys2Proof.Machine

/-- Settles O33: reset leaves nothing stored, nothing produced and no raster begun. -/
theorem resetSatisfiesInvariants : Obligations.ResetSatisfiesInvariants :=
  .of_cleared rfl rfl rfl rfl rfl rfl rfl

/-- Settles O34, event by event; a command by its answers, R37 rebuilt after `START`, cases A to C2 of `PIX`. -/
theorem everyStepKeepsInvariants : Obligations.EveryStepKeepsInvariants := fun _ _ => StateInv.step

/-- Settles O35, by induction on the number of steps, from O33 and O34. -/
theorem runStatesReachedFromResetSatisfyR37 : Obligations.RunStatesReachedFromResetSatisfyR37 := by
  intro n input emitMcs t ht hp
  have hreset : StateInv { State.reset with input := input, emitMcs := emitMcs } :=
    .of_cleared rfl rfl rfl rfl rfl rfl rfl
  exact (hreset.run n ht).running hp
end

section
/-! PROOF. What a command may write: not the world's fields, `DEPTH` at `START` only,
`NEXT_CODE` by one (10_state.md R20, R25, R29). -/

namespace Sys2Proof.Machine

/-- R25: a command that changes `DEPTH` is a performed `START`. -/
theorem Answers.depth_changed {i : Instr} {s t : State} (h : Answers s i t) (hne : t.depth ≠ s.depth) :
    i = .start t.depth ∧ (s.phase = .idle ∨ s.phase = .done) ∧ t.phase = .run ∧ 2 ≤ t.depth.toNat ∧
      t.depth.toNat ≤ 8 := by
  rcases h.control with (rfl | ⟨e, -, rfl⟩) | ⟨-, ⟨d, rfl, hp, hd, ht, rfl⟩ | ⟨-, hdepth, -⟩⟩
  · exact absurd rfl hne
  · exact absurd rfl hne
  · exact ⟨rfl, hp, ht, hd⟩
  · exact absurd hdepth hne

/-- R29, R133: only case C1 raises `NEXT_CODE` and only case C2 restarts it. -/
theorem Answers.nextCode {i : Instr} {s t : State} (h : Answers s i t) (hs : RunInv s) (hp : s.phase = .run) :
    t.nextCode = s.nextCode ∨
    (t.nextCode.toNat = s.nextCode.toNat + 1 ∧ t.nextCode.toNat ≤ 4096) ∨
    (s.nextCode.toNat = 4096 ∧ t.nextCode.toNat = 2 ^ s.depth.toNat + 2 ∧ t.dict = []) := by
  cases h with
  | discarded => exact .inl rfl
  | raised e => exact .inl rfl
  | started hstart => rcases hstart with hstart | hstart <;> simp [hp] at hstart
  | first => exact .inl rfl
  | known => exact .inl rfl
  | entered _ _ _ _ hroom hu =>
    obtain ⟨-, -, -, -, -, -, hnext, -⟩ := (packBits_only hu).fields
    refine .inr (.inl ?_)
    rw [setPrefix_nextCode, extendDict_nextCode, widthUpdate_nextCode, hnext, nextCode_succ hroom]
    exact ⟨rfl, hroom⟩
  | cleared _ _ _ _ hfull hu hv =>
    obtain ⟨-, -, hdepth, -⟩ := (packBits_only hu).fields
    obtain ⟨-, -, hdepth', -⟩ := (packBits_only hv).fields
    have hle : s.nextCode.toNat ≤ 4096 := hs.nextCode_range.2
    obtain ⟨-, hclear, -⟩ := clear_bounds hs.depth_range
    refine .inr (.inr ⟨by omega, ?_, rfl⟩)
    simp only [setPrefix_nextCode, freshTable_nextCode, hdepth', widthUpdate_depth, hdepth, firstFree,
      BitVec.toNat_ofNat]
    omega
  | finished _ _ hu hv hx hy =>
    obtain ⟨-, -, -, -, hnext, -⟩ := finishRaster_fields hu hv hx hy
    exact .inl hnext

end Sys2Proof.Machine

open Sys2Proof Sys2Proof.Machine

/-- Settles O38: the fields of the world are kept by every answer. -/
theorem commandsLeaveTheWorldAlone : Obligations.CommandsLeaveTheWorldAlone := fun _ _ _ h => (exec_answers h).world

/-- Settles O39, event by event: of those that are no command only `rst` writes `DEPTH`. -/
theorem depthWrittenOnlyByStartAndReset : Obligations.DepthWrittenOnlyByStartAndReset := by
  intro s t ht hne
  rcases step_next ht with ⟨-, rfl⟩ | ⟨w, rest, hi, hx⟩ | ⟨w, rest, -, rfl⟩ | ⟨rest, -, rfl⟩ | ⟨o, rest, hi, rfl⟩
  · exact absurd rfl hne
  · obtain ⟨hstart, hd⟩ := (exec_answers hx).depth_changed hne
    exact .inr ⟨w, rest, hi, hstart, hd⟩
  · exact absurd rfl hne
  · exact absurd (consumerTake_depth _) hne
  · exact .inl ⟨o, rest, hi, rfl⟩

/-- Settles O40: `NEXT_CODE` after each answer that phase `RUN` allows. -/
theorem nextCodeRisesByOneOrRestarts : Obligations.NextCodeRisesByOneOrRestarts := fun _ _ _ hs hp h =>
  (exec_answers h).nextCode hs hp
end

section
/-! PROOF. A command word is carried whole: through the decoder and the encoder, and
through the two bytes of the opcode table's carriage (30_encoding.md R80 to R86). -/

namespace Sys2Proof

/-! ## The fields of a word -/

@[simp] theorem opField_append (op : BitVec 2) (arg : BitVec 8) : opField (op ++ arg : CmdWord) = op :=
  BitVec.extractLsb'_append_eq_left

@[simp] theorem argField_append (op : BitVec 2) (arg : BitVec 8) : argField (op ++ arg : CmdWord) = arg :=
  BitVec.extractLsb'_append_eq_right

theorem opField_append_argField (w : CmdWord) : (opField w ++ argField w : CmdWord) = w :=
  BitVec.extractLsb'_append_extractLsb' (w := 2) (len := 8)

/-- R81: the word of `START d` by its fields, bits 7:4 zero. -/
theorem encode_start (d : DepthField) : encode (.start d) = (0#2 ++ (0#4 ++ d : BitVec 8) : CmdWord) :=
  BitVec.eq_of_toNat_eq <| calc
    (encode (.start d)).toNat = (0#6).toNat <<< 4 ||| d.toNat := BitVec.toNat_append ..
    _ = (0#2).toNat <<< 8 ||| ((0#4).toNat <<< 4 ||| d.toNat) := by simp
    _ = (0#2).toNat <<< 8 ||| (0#4 ++ d).toNat := by rw [BitVec.toNat_append]
    _ = (0#2 ++ (0#4 ++ d : BitVec 8) : CmdWord).toNat := (BitVec.toNat_append ..).symm

/-! ## The decoder and the encoder -/

/-- R85: no bit of a word is dropped by its reading. -/
theorem encode_decodeWord (w : CmdWord) : encode (decodeWord w) = w := by
  have hw := opField_append_argField w
  have hop : ∀ k : BitVec 2, (opField w).toNat = k.toNat → opField w = k := fun k => BitVec.eq_of_toNat_eq
  unfold decodeWord
  split
  case h_1 h0 =>
    split
    case isTrue hhigh =>
      have harg : (0#4 ++ (argField w).extractLsb' 0 4 : BitVec 8) = argField w := by
        rw [← hhigh]; exact BitVec.extractLsb'_append_extractLsb' (w := 4) (len := 4)
      rw [hop 0 h0] at hw
      rw [encode_start, harg]
      exact hw
    case isFalse => rfl
  case h_2 h1 => rw [hop 1 h1] at hw; exact hw
  case h_3 h2 =>
    split
    case isTrue harg => rw [hop 2 h2, harg] at hw; exact hw
    case isFalse => rfl
  case h_4 => rfl

/-- R81 to R83, R86: the opcode table's row of every instruction. -/
theorem encodeRow (i : Instr) : Laws.EncodeRow.Statement i := by
  cases i with
  | start d => exact Laws.EncodeRow.start d
  | pix p => exact Laws.EncodeRow.pix p
  | finish => exact Laws.EncodeRow.finish
  | illegal w => exact Laws.EncodeRow.illegal w

/-- R86: the word of a command is no illegal word, for it belongs to the command's row. -/
theorem illegal_encode_not_wf {i : Instr} {r : OpcodeRow} (hi : i.wf = true) (hrow : Laws.EncodeRow.row i = some r)
    (hr : r ∈ commandRows) : ¬ (Instr.illegal (encode i)).wf = true := fun h => by
  have hhas : r.has (encode i) = true := (encodeRow i hi r hr).2 hrow
  simpa [hhas] using List.all_eq_true.1 h r hr

/-- R85, R86: a word of no row is read as illegal, for any other reading would put it into its row. -/
theorem decodeWord_illegal {w : CmdWord} (h : (Instr.illegal w).wf = true) : decodeWord w = .illegal w := by
  have hw := encode_decodeWord w
  cases hd : decodeWord w with
  | start d => rw [← hw, hd] at h; exact absurd h (illegal_encode_not_wf rfl rfl (by decide))
  | pix p => rw [← hw, hd] at h; exact absurd h (illegal_encode_not_wf rfl rfl (by decide))
  | finish => rw [← hw, hd] at h; exact absurd h (illegal_encode_not_wf rfl rfl (by decide))
  | illegal v => rw [hd] at hw; exact congrArg Instr.illegal hw

/-- R85: a well-formed instruction is read back from its word. -/
theorem decodeWord_encode {i : Instr} (h : i.wf = true) : decodeWord (encode i) = i := by
  cases i with
  | start d =>
    have hhigh : (0#4 ++ d : BitVec 8).extractLsb' 4 4 = 0#4 := BitVec.extractLsb'_append_eq_left
    have hlow : (0#4 ++ d : BitVec 8).extractLsb' 0 4 = d := BitVec.extractLsb'_append_eq_right
    rw [encode_start]
    simp [decodeWord, hhigh, hlow]
  | pix p => simp [encode, decodeWord]
  | finish => rfl
  | illegal w => exact decodeWord_illegal h

/-! ## The carriage in two bytes -/

theorem wordOfBytes_bytesOfNat (w : CmdWord) : wordOfBytes (bytesOfNat w.toNat) = .ok w := by
  have hlt := w.isLt
  have hhigh : (BitVec.ofNat 8 (w.toNat / 256)).toNat = w.toNat / 256 := by
    rw [BitVec.toNat_ofNat]; omega
  have hop : (BitVec.ofNat 8 (w.toNat / 256)).extractLsb' 0 2 = opField w :=
    BitVec.eq_of_toNat_eq (by simp [opField, hhigh, Nat.shiftRight_eq_div_pow])
  have harg : BitVec.ofNat 8 w.toNat = argField w := BitVec.eq_of_toNat_eq (by simp [argField])
  have hport : (BitVec.ofNat 8 (w.toNat / 256)).toNat < 4 := by omega
  rw [bytesOfNat, wordOfBytes, if_pos hport, hop, harg, opField_append_argField]

theorem tableCmdWord_toNat (w : CmdWord) : tableCmdWord 16 w.toNat = some w := by
  have hlt := w.isLt
  have hmod : w.toNat % 2 ^ 16 = w.toNat := Nat.mod_eq_of_lt (by omega)
  rw [tableCmdWord, hmod, if_pos (by omega), wordOfBytes_bytesOfNat]
  rfl

end Sys2Proof
end

section
/-! PROOF. What each event at the ports does, and what the ports show (10_state.md R20, R21, R35,
R38). -/

namespace Sys2Proof.Machine

theorem step_take {s : State} {rest : List PortEvent} (h : s.input = .take :: rest) :
    step s = .next (consumerTake { s with input := rest }) := by
  unfold step nextEvent; rw [h]

theorem step_rst {s : State} {offered : Option CmdWord} {rest : List PortEvent} (h : s.input = .rst offered :: rest) :
    step s = .next (applyReset { s with input := rest }) := by
  unfold step nextEvent; rw [h]

/-- R20: a word placed by `withFetchWord` is the next that the block accepts. -/
theorem step_withFetchWord {s : State} {n : Nat} {w : CmdWord} (h : tableCmdWord 16 n = some w) :
    step (s.withFetchWord 16 n) = exec (decodeWord w) s := by
  unfold State.withFetchWord
  rw [h]
  exact step_accept (rest := s.input) rfl

/-- R21: a byte is offered exactly when some byte of `OUT` has not been taken. -/
theorem outPending_iff {s : State} : outPending s = true ↔ s.taken < s.out.length := decide_eq_true_iff

/-! ## The fields of `STATUS` -/

theorem status_phase (s : State) : (status s).extractLsb' 0 2 = s.phase.bits := BitVec.extractLsb'_append_eq_right

theorem status_errcode (s : State) : (status s).extractLsb' 2 3 = s.errcode.bits := by
  unfold status
  rw [BitVec.extractLsb'_append_eq_of_le (by decide)]
  exact BitVec.extractLsb'_append_eq_right

/-- R35: one bit of `STATUS`, by the field it lies in. -/
theorem status_getLsbD (s : State) (i : Nat) : (status s).getLsbD i =
    if i < 2 then s.phase.bits.getLsbD i
    else if i - 2 < 3 then s.errcode.bits.getLsbD (i - 2)
    else if i - 2 - 3 < 1 then (BitVec.ofBool s.havePrefix).getLsbD (i - 2 - 3)
    else if i - 2 - 3 - 1 < 1 then (BitVec.ofBool (outPending s)).getLsbD (i - 2 - 3 - 1)
    else (0#1).getLsbD (i - 2 - 3 - 1 - 1) := by
  refine BitVec.getLsbD_append.trans ?_
  simp only [BitVec.getLsbD_append]

theorem status_havePrefix (s : State) : (status s).getLsbD 5 = s.havePrefix := by
  rw [status_getLsbD]; simp

theorem status_outPending (s : State) : (status s).getLsbD 6 = outPending s := by
  rw [status_getLsbD]; simp

theorem status_reserved (s : State) : (status s).getLsbD 7 = false := by
  rw [status_getLsbD]; simp

end Sys2Proof.Machine

open Sys2Proof Sys2Proof.Machine

/-- Settles O6: the placed word and the encoded instruction are both cases of an accepted word. -/
theorem stepPerformsAcceptedWord : Obligations.StepPerformsAcceptedWord := by
  refine ⟨fun s w rest h => step_accept h, fun s i rest hi h => ?_, fun s i hi => ?_⟩
  · rw [step_accept h, decodeWord_encode hi]
  · rw [step_withFetchWord (tableCmdWord_toNat _), decodeWord_encode hi]

/-- Settles O8: a byte is offered exactly when the count of taken bytes is an index of `OUT`. -/
theorem consumerTakesBytesInOrder : Obligations.ConsumerTakesBytesInOrder := by
  intro s rest h
  rw [step_take h]
  refine ⟨fun b hb => ?_, fun hnone => ?_⟩
  · obtain ⟨hlt, hget⟩ := List.getElem?_eq_some_iff.1 hb
    have hpending : outValid { s with input := rest } = true := outPending_iff.2 hlt
    exact ⟨by rw [consumerTake, if_pos hpending], by rw [List.take_add_one, List.getElem?_eq_getElem hlt, hget]; rfl⟩
  · have hpending : ¬ outValid { s with input := rest } = true := fun hv =>
      Nat.not_lt.2 (List.getElem?_eq_none_iff.1 hnone) (outPending_iff.1 hv)
    rw [consumerTake, if_neg hpending]

/-- Settles O9: the reset state by evaluation, field by field, and no pair in an empty dictionary. -/
theorem resetFromEveryState : Obligations.ResetFromEveryState := by
  intro s offered rest h
  exact ⟨_, step_rst h, rfl, by simp [status, outPending, ErrCode.bits, Phase.bits], rfl, dictLookup_empty rfl, fun i => rfl⟩

/-- Settles O10, field by field of the word. -/
theorem statusShowsItsFields : Obligations.StatusShowsItsFields := by
  intro s
  refine ⟨?_, ?_, status_havePrefix s, ?_, status_reserved s⟩
  · rw [status_phase]; cases s.phase <;> rfl
  · rw [status_errcode]; cases s.errcode <;> rfl
  · rw [status_outPending, outPending_iff]
end

section
/-! PROOF. `OUT` is written at its end only and never read (20_memory.md R57, R58): each operation commutes with putting
a history in front of `OUT`. -/

namespace Sys2Proof.Machine

/-- The state with the bytes `hist` in `OUT` in front of those it holds. -/
def prependOut (hist : List Byte) (s : State) : State := { s with out := hist ++ s.out }

/-- The answer with the bytes `hist` in front of `OUT`; a stop has no `OUT`. -/
def prepended (hist : List Byte) (r : Result) : Result := andThen r fun t => .next (prependOut hist t)

variable (hist : List Byte) (s : State)

/-- A sequence commutes when its parts do. -/
theorem andThen_prepended {r r' : Result} {f g : State → Result} (hr : r' = prepended hist r)
    (hf : ∀ t, g (prependOut hist t) = prepended hist (f t)) : andThen r' g = prepended hist (andThen r f) := by
  subst hr
  cases r with
  | next t => exact hf t
  | fault e => rfl
  | refused e => rfl

/-- A test that does not look at `OUT` takes the same branch. -/
theorem ite_prepended {c : Prop} [Decidable c] {a b a' b' : Result} (ht : a' = prepended hist a)
    (he : b' = prepended hist b) : (if c then a' else b') = prepended hist (if c then a else b) := by
  rw [ht, he, apply_ite (prepended hist)]

theorem whenLegal_prepended (legal : List Phase) {k k' : Result} (hk : k' = prepended hist k) :
    whenLegal legal (prependOut hist s) k' = prepended hist (whenLegal legal s k) :=
  ite_prepended hist rfl (ite_prepended hist hk rfl)

/-- R58: an append is at the end, behind any history. -/
theorem outAppend_prependOut (bs : List Byte) :
    outAppend bs (prependOut hist s) = prependOut hist (outAppend bs s) := by
  unfold outAppend prependOut
  rw [List.append_assoc]

/-! ## The bit packer -/

theorem flushBlock_prependOut : flushBlock (prependOut hist s) = prepended hist (flushBlock s) := by
  refine ite_prepended hist rfl (ite_prepended hist ?_ rfl)
  show Host.Outcome.next { outAppend (s.blkcnt :: pendingBytes s) (prependOut hist s) with blkcnt := 0 } = _
  rw [outAppend_prependOut]
  rfl

theorem putByte_prependOut (b : Byte) : putByte b (prependOut hist s) = prepended hist (putByte b s) :=
  andThen_prepended hist (r := blkStore b s) (ite_prepended hist rfl rfl) fun t =>
    ite_prepended hist (flushBlock_prependOut hist t) rfl

theorem packLoop_prependOut (n : Nat) : ∀ s, packLoop n (prependOut hist s) = prepended hist (packLoop n s) := by
  induction n with
  | zero => exact fun s => rfl
  | succ n ih =>
    exact fun s => ite_prepended hist (andThen_prepended hist (putByte_prependOut hist s _) fun t =>
      ih { t with acc := t.acc >>> 8, nacc := t.nacc - 8 }) rfl

theorem packBits_prependOut (c w : Nat) : packBits c w (prependOut hist s) = prepended hist (packBits c w s) :=
  ite_prepended hist (packLoop_prependOut hist _ { s with
    acc := BitVec.ofNat 19 (s.acc.toNat + c <<< s.nacc.toNat), nacc := BitVec.ofNat 5 (s.nacc.toNat + w) }) rfl

theorem drain_prependOut : drain (prependOut hist s) = prepended hist (drain s) :=
  ite_prepended hist (andThen_prepended hist (putByte_prependOut hist s _) fun _ => rfl) rfl

/-! ## The code writer -/

theorem widthUpdate_prependOut : widthUpdate (prependOut hist s) = prependOut hist (widthUpdate s) := by
  unfold widthUpdate
  rw [apply_ite (prependOut hist)]
  rfl

theorem emitCode_prependOut (c : Code) : emitCode c (prependOut hist s) = prepended hist (emitCode c s) :=
  andThen_prepended hist (packBits_prependOut hist s _ _) fun t =>
    congrArg Host.Outcome.next (widthUpdate_prependOut hist t)

theorem clearAndReset_prependOut : clearAndReset (prependOut hist s) = prepended hist (clearAndReset s) :=
  andThen_prepended hist (packBits_prependOut hist s _ _) fun _ => rfl

/-! ## The commands -/

theorem emitMinCodeSize_prependOut : emitMinCodeSize (prependOut hist s) = prependOut hist (emitMinCodeSize s) := by
  unfold emitMinCodeSize
  rw [apply_ite (prependOut hist), ← outAppend_prependOut]
  rfl

theorem execStart_prependOut (d : DepthField) : execStart d (prependOut hist s) = prepended hist (execStart d s) := by
  refine whenLegal_prepended hist s _ (ite_prepended hist ?_ rfl)
  have hstart := packBits_prependOut hist (emitMinCodeSize (startRegisters d s)) (clearCode d) (initWidth d)
  rwa [← emitMinCodeSize_prependOut] at hstart

theorem novelPair_prependOut (p : Pixel) : novelPair p (prependOut hist s) = prepended hist (novelPair p s) :=
  andThen_prepended hist (emitCode_prependOut hist s _) fun t =>
    andThen_prepended hist (ite_prepended hist rfl (clearAndReset_prependOut hist t)) fun _ => rfl

theorem consumePixel_prependOut (p : Pixel) :
    consumePixel p (prependOut hist s) = prepended hist (consumePixel p s) := by
  refine ite_prepended hist ?_ rfl
  rw [show dictLookup (prependOut hist s).prefixCode p (prependOut hist s) = dictLookup s.prefixCode p s from rfl]
  cases dictLookup s.prefixCode p s with
  | some c => rfl
  | none => exact novelPair_prependOut hist s p

theorem execPix_prependOut (p : Pixel) : execPix p (prependOut hist s) = prepended hist (execPix p s) :=
  whenLegal_prepended hist s _ (ite_prepended hist (consumePixel_prependOut hist s p) rfl)

theorem terminate_prependOut : terminate (prependOut hist s) = prependOut hist (terminate s) :=
  outAppend_prependOut hist s _

theorem finishRaster_prependOut : finishRaster (prependOut hist s) = prepended hist (finishRaster s) :=
  andThen_prepended hist (emitCode_prependOut hist s _) fun t =>
    andThen_prepended hist (packBits_prependOut hist t _ _) fun u =>
      andThen_prepended hist (drain_prependOut hist u) fun v =>
        andThen_prepended hist (flushBlock_prependOut hist v) fun x => by rw [terminate_prependOut]; rfl

theorem execFinish_prependOut : execFinish (prependOut hist s) = prepended hist (execFinish s) :=
  whenLegal_prepended hist s _ (ite_prepended hist (finishRaster_prependOut hist s) rfl)

theorem execIllegal_prependOut (w : CmdWord) : execIllegal w (prependOut hist s) = prepended hist (execIllegal w s) :=
  ite_prepended hist rfl rfl

/-- R57: with a history in front of `OUT` every instruction does the same, and the history stays in front. -/
theorem exec_prependOut (i : Instr) : exec i (prependOut hist s) = prepended hist (exec i s) := by
  cases i with
  | start d => exact execStart_prependOut hist s d
  | pix p => exact execPix_prependOut hist s p
  | finish => exact execFinish_prependOut hist s
  | illegal w => exact execIllegal_prependOut hist s w

/-- Any history is one put in front of an empty `OUT`. -/
theorem prependOut_empty : prependOut hist { s with out := [] } = { s with out := hist } := by
  unfold prependOut
  rw [List.append_nil]

/-- R57: what an instruction does is the same from every history, and so are the bytes it appends. -/
theorem exec_withOut (i : Instr) :
    exec i { s with out := hist } = prepended hist (exec i { s with out := [] }) := by
  rw [← exec_prependOut, prependOut_empty]

end Sys2Proof.Machine

open Sys2Proof Sys2Proof.Machine

/-- Settles O37: `bs` is what the instruction writes into an empty `OUT`, and any history goes in front of it. -/
theorem outIsAppendOnlyAndNeverRead : Obligations.OutIsAppendOnlyAndNeverRead := by
  intro i s t h
  obtain ⟨u, hu, hut⟩ := andThen_next_iff.1 ((exec_withOut s.out s i).symm.trans h)
  injection hut with hut
  subst hut
  exact ⟨u.out, rfl, fun other => by rw [exec_withOut, hu]; rfl⟩
end

section
/-! PROOF. The storage primitives, and the steps that leave the block as it is (20_memory.md R51 to R56, R67;
60_exceptions.md R188). -/

namespace Sys2Proof.Machine

theorem step_wait {s : State} {w : CmdWord} {rest : List PortEvent} (h : s.input = .wait w :: rest) :
    step s = .next { s with input := rest } := by
  unfold step nextEvent; rw [h]

theorem step_idle {s : State} (h : s.input = []) : step s = .next s := by
  unfold step nextEvent; rw [h]

end Sys2Proof.Machine

open Sys2Proof Sys2Proof.Machine

/-- Settles O7: an event that is no command, and no event at all. -/
theorem unacceptedWordAndIdleHaveNoEffect : Obligations.UnacceptedWordAndIdleHaveNoEffect :=
  ⟨fun _ _ _ => step_wait, fun _ => step_idle⟩

/-- Settles O31: a finite map keyed by the pair, since the key of a pair determines it. -/
theorem dictionaryIsExactMap : Obligations.DictionaryIsExactMap :=
  ⟨fun _ _ _ _ => dictLookup_put rfl, fun _ => dictLookup_empty rfl, fun _ _ _ _ => rfl, fun _ => rfl,
    fun q p c _ => Dict.wf_put q p c⟩

/-- Settles O32, by the bound on `BLKCNT`. -/
theorem blkStoreWritesOneElement : Obligations.BlkStoreWritesOneElement := by
  refine ⟨fun b s h => ?_, fun b s h => ?_⟩
  · have hroom : s.blkcnt.toNat < Config.blockMax := Nat.lt_succ_of_le h
    exact ⟨_, if_pos hroom, rfl, blkRead_write rfl rfl, fun hwf => Memory.wf_write b hwf hroom⟩
  · exact if_neg (Nat.not_lt.2 h)
end


section
/-! PROOF. Each command word and its one reading: round trips, the fields that decide the reading, and how many words
have each reading (30_encoding.md R80 to R86). -/

namespace Sys2Proof

/-! ## The rows of the opcode table, by the fields of a word -/

/-- A row asks for its bits field by field. -/
theorem OpcodeRow.has_iff_fields {r : OpcodeRow} {opMask opBits : BitVec 2} {argMask argBits : BitVec 8}
    (hmask : r.mask = opMask ++ argMask) (hpattern : r.pattern = opBits ++ argBits) (w : CmdWord) :
    r.has w = true ↔ opField w &&& opMask = opBits ∧ argField w &&& argMask = argBits := by
  have hand : w &&& r.mask = (opField w &&& opMask) ++ (argField w &&& argMask) := by
    rw [hmask, ← BitVec.and_append, opField_append_argField]
  rw [OpcodeRow.has, beq_iff_eq, hand, hpattern]
  constructor
  · intro h
    exact ⟨by simpa using congrArg opField h, by simpa using congrArg argField h⟩
  · rintro ⟨hop, harg⟩
    rw [hop, harg]

theorem and_high_nibble_eq_zero_iff : ∀ arg : BitVec 8, arg &&& 0xF0#8 = 0#8 ↔ arg.extractLsb' 4 4 = 0#4 := by
  decide

/-- R81. -/
theorem OpcodeRow.start_has_iff (w : CmdWord) :
    OpcodeRow.start.has w = true ↔ opField w = 0#2 ∧ (argField w).extractLsb' 4 4 = 0#4 := by
  rw [OpcodeRow.has_iff_fields (opMask := BitVec.allOnes 2) (argMask := 0xF0#8) (opBits := 0#2) (argBits := 0#8) rfl
    rfl, BitVec.and_allOnes, and_high_nibble_eq_zero_iff]

/-- R82. -/
theorem OpcodeRow.pix_has_iff (w : CmdWord) : OpcodeRow.pix.has w = true ↔ opField w = 1#2 := by
  rw [OpcodeRow.has_iff_fields (opMask := BitVec.allOnes 2) (argMask := 0#8) (opBits := 1#2) (argBits := 0#8) rfl rfl,
    BitVec.and_allOnes, BitVec.and_zero, and_iff_left rfl]

/-- R83. -/
theorem OpcodeRow.finish_has_iff (w : CmdWord) :
    OpcodeRow.finish.has w = true ↔ opField w = 2#2 ∧ argField w = 0#8 := by
  rw [OpcodeRow.has_iff_fields (opMask := BitVec.allOnes 2) (argMask := BitVec.allOnes 8) (opBits := 2#2)
    (argBits := 0#8) rfl rfl, BitVec.and_allOnes, BitVec.and_allOnes]

/-- R86: the words that name no command, by their fields. -/
theorem illegal_wf_iff (w : CmdWord) : (Instr.illegal w).wf = true ↔
    ¬ (opField w = 0#2 ∧ (argField w).extractLsb' 4 4 = 0#4) ∧ opField w ≠ 1#2 ∧
      ¬ (opField w = 2#2 ∧ argField w = 0#8) := by
  rw [← OpcodeRow.start_has_iff, ← OpcodeRow.finish_has_iff, ne_eq, ← OpcodeRow.pix_has_iff]
  simp [Instr.wf, commandRows]

/-- R85: every word has a reading that is an instruction's own. -/
theorem decodeWord_wf (w : CmdWord) : (decodeWord w).wf = true := by
  unfold decodeWord
  split
  case h_1 h0 =>
    have hop : opField w = 0#2 := BitVec.eq_of_toNat_eq h0
    split
    case isTrue => rfl
    case isFalse hhigh => exact (illegal_wf_iff w).2 (by simp [hop, hhigh])
  case h_2 => rfl
  case h_3 h2 =>
    have hop : opField w = 2#2 := BitVec.eq_of_toNat_eq h2
    split
    case isTrue => rfl
    case isFalse harg => exact (illegal_wf_iff w).2 (by simp [hop, harg])
  case h_4 h0 h1 h2 =>
    have hne : ∀ k : BitVec 2, (opField w).toNat ≠ k.toNat → opField w ≠ k := fun k hk e => hk (congrArg _ e)
    exact (illegal_wf_iff w).2 ⟨fun h => hne 0 h0 h.1, hne 1 h1, fun h => hne 2 h2 h.1⟩

/-- R98: a word belongs to the row of its reading and to no other. -/
theorem has_iff_row_decodeWord (w : CmdWord) {r : OpcodeRow} (hr : r ∈ commandRows) :
    r.has w = true ↔ Laws.EncodeRow.row (decodeWord w) = some r := by
  have hrow := encodeRow (decodeWord w) (decodeWord_wf w) r hr
  rwa [encode_decodeWord] at hrow

/-! ## The carriage in two bytes -/

theorem decodeBytes_bytesOfNat (w : CmdWord) : decodeBytes (bytesOfNat w.toNat) = .ok (decodeWord w) := by
  rw [decodeBytes, wordOfBytes_bytesOfNat]
  rfl

/-! ## The six cases of R85 on numbers -/

theorem opField_toNat (w : CmdWord) : (opField w).toNat = w.toNat / 256 := by
  have hlt := w.isLt
  rw [opField, BitVec.extractLsb'_toNat, Nat.shiftRight_eq_div_pow]
  omega

theorem argField_toNat (w : CmdWord) : (argField w).toNat = w.toNat % 256 := by
  simp [argField]

theorem argField_eq_ofNat (w : CmdWord) : argField w = BitVec.ofNat 8 (w.toNat % 256) :=
  BitVec.eq_of_toNat_eq (by rw [argField_toNat]; simp)

theorem argField_low_eq_ofNat (w : CmdWord) : (argField w).extractLsb' 0 4 = BitVec.ofNat 4 (w.toNat % 256) :=
  BitVec.eq_of_toNat_eq (by simp [argField_toNat])

theorem argField_eq_zero_iff (w : CmdWord) : argField w = 0#8 ↔ w.toNat % 256 = 0 := by
  rw [← argField_toNat, ← BitVec.toNat_inj]
  rfl

theorem argField_high_eq_zero_iff (w : CmdWord) : (argField w).extractLsb' 4 4 = 0#4 ↔ w.toNat % 256 / 16 = 0 := by
  have hlt : w.toNat % 256 / 16 < 16 := by omega
  rw [← BitVec.toNat_inj, BitVec.extractLsb'_toNat, argField_toNat, Nat.shiftRight_eq_div_pow]
  simp only [BitVec.toNat_ofNat]
  omega

variable {w : CmdWord}

theorem decodeWord_start (hop : w.toNat / 256 = 0) (hhigh : w.toNat % 256 / 16 = 0) :
    decodeWord w = .start (BitVec.ofNat 4 (w.toNat % 256)) := by
  rw [← argField_low_eq_ofNat, decodeWord, opField_toNat, hop]
  exact if_pos ((argField_high_eq_zero_iff w).2 hhigh)

theorem decodeWord_start_illegal (hop : w.toNat / 256 = 0) (hhigh : w.toNat % 256 / 16 ≠ 0) :
    decodeWord w = .illegal w := by
  rw [decodeWord, opField_toNat, hop]
  exact if_neg (mt (argField_high_eq_zero_iff w).1 hhigh)

theorem decodeWord_pix (hop : w.toNat / 256 = 1) : decodeWord w = .pix (BitVec.ofNat 8 (w.toNat % 256)) := by
  rw [← argField_eq_ofNat, decodeWord, opField_toNat, hop]
  rfl

theorem decodeWord_finish (hop : w.toNat / 256 = 2) (harg : w.toNat % 256 = 0) : decodeWord w = .finish := by
  rw [decodeWord, opField_toNat, hop]
  exact if_pos ((argField_eq_zero_iff w).2 harg)

theorem decodeWord_finish_illegal (hop : w.toNat / 256 = 2) (harg : w.toNat % 256 ≠ 0) :
    decodeWord w = .illegal w := by
  rw [decodeWord, opField_toNat, hop]
  exact if_neg (mt (argField_eq_zero_iff w).1 harg)

theorem decodeWord_reserved (hop : w.toNat / 256 = 3) : decodeWord w = .illegal w := by
  rw [decodeWord, opField_toNat, hop]
  rfl

/-! ## How many words have a reading -/

/-- How many of the words below `n` have a reading that `f` accepts. -/
def wordCount (f : Instr → Bool) (n : Nat) : Nat := (List.range n).countP fun i => f (decodeWord (BitVec.ofNat 10 i))

/-- Counting goes on over the words from `m` up to `n` when their readings are known. -/
theorem wordCount_eq_add {m n len : Nat} (reading : Nat → Instr) (f : Instr → Bool) (hn : n = m + len)
    (hmax : n ≤ 1024) (h : ∀ k < len, ∀ w : CmdWord, w.toNat = m + k → decodeWord w = reading k) :
    wordCount f n = wordCount f m + (List.range len).countP fun k => f (reading k) := by
  subst hn
  unfold wordCount
  rw [List.range_add, List.countP_append, List.countP_map]
  congr 1
  refine List.countP_congr fun k hk => ?_
  have hk := List.mem_range.1 hk
  rw [Function.comp_apply, h k hk _ ((BitVec.toNat_ofNat ..).trans (Nat.mod_eq_of_lt (by omega)))]

/-- Counting goes on over illegal words, each of which its reading carries. -/
theorem wordCount_eq_add_illegal {m n len : Nat} (f : Instr → Bool) (hn : n = m + len) (hmax : n ≤ 1024)
    (h : ∀ w : CmdWord, m ≤ w.toNat → w.toNat < n → decodeWord w = .illegal w) :
    wordCount f n = wordCount f m + (List.range len).countP fun k => f (.illegal (BitVec.ofNat 10 (m + k))) :=
  wordCount_eq_add (fun k => .illegal (BitVec.ofNat 10 (m + k))) f hn hmax fun k hk w hw => by
    rw [← hw, BitVec.ofNat_toNat, BitVec.setWidth_eq]
    exact h w (by omega) (by omega)

/-- R85: the 1024 words in order: 16 of `START`, 240 illegal, 256 of `PIX`, one of `FINISH`, 255 and 256 illegal. -/
theorem wordCount_eq (f : Instr → Bool) : wordCount f 1024 =
    (List.range 16).countP (fun k => f (.start (BitVec.ofNat 4 k))) +
    (List.range 240).countP (fun k => f (.illegal (BitVec.ofNat 10 (16 + k)))) +
    (List.range 256).countP (fun k => f (.pix (BitVec.ofNat 8 k))) +
    (List.range 1).countP (fun _ => f .finish) +
    (List.range 255).countP (fun k => f (.illegal (BitVec.ofNat 10 (513 + k)))) +
    (List.range 256).countP (fun k => f (.illegal (BitVec.ofNat 10 (768 + k)))) := by
  have reserved := wordCount_eq_add_illegal (m := 768) (n := 1024) (len := 256) f rfl (by decide) fun w hm hn =>
    decodeWord_reserved (by omega)
  have notFinish := wordCount_eq_add_illegal (m := 513) (n := 768) (len := 255) f rfl (by decide) fun w hm hn =>
    decodeWord_finish_illegal (by omega) (by omega)
  have finish := wordCount_eq_add (m := 512) (n := 513) (len := 1) (fun _ => .finish) f
    rfl (by decide) fun k hk w hw => decodeWord_finish (by omega) (by omega)
  have pix := wordCount_eq_add (m := 256) (n := 512) (len := 256) (fun k => .pix (BitVec.ofNat 8 k)) f
    rfl (by decide) fun k hk w hw => by rw [decodeWord_pix (by omega), show w.toNat % 256 = k by omega]
  have notStart := wordCount_eq_add_illegal (m := 16) (n := 256) (len := 240) f rfl (by decide) fun w hm hn =>
    decodeWord_start_illegal (by omega) (by omega)
  have start := wordCount_eq_add (m := 0) (n := 16) (len := 16) (fun k => .start (BitVec.ofNat 4 k)) f
    rfl (by decide) fun k hk w hw => by rw [decodeWord_start (by omega) (by omega), show w.toNat % 256 = k by omega]
  have empty : wordCount f 0 = 0 := rfl
  rw [reserved, notFinish, finish, pix, notStart, start, empty, Nat.zero_add]

end Sys2Proof

open Sys2Proof Sys2Proof.Machine

/-- Settles O1: the reading of an encoding, and the two bytes carry the word whole. -/
theorem decodeInvertsEncodeOnWellFormed : Obligations.DecodeInvertsEncodeOnWellFormed := by
  intro i hi
  exact ⟨decodeWord_encode hi, by rw [decodeBytes_bytesOfNat, decodeWord_encode hi]⟩

/-- Settles O2: no illegal reading is given to a word of a row, and no bit of the word is dropped. -/
theorem encodeInvertsDecode : Obligations.EncodeInvertsDecode := fun w => ⟨decodeWord_wf w, encode_decodeWord w⟩

/-- Settles O3: the fields on numbers, and the words of each reading as ranges of numbers. -/
theorem decodeFollowsItsSixCases : Obligations.DecodeFollowsItsSixCases := by
  refine ⟨fun w => ⟨decodeWord_start, decodeWord_start_illegal, decodeWord_pix, decodeWord_finish,
    decodeWord_finish_illegal, decodeWord_reserved⟩, ?_⟩
  intro count
  have hcount : ∀ f, count f = wordCount f 1024 := fun _ => rfl
  have hlegal : (List.range 16).countP (fun k => depthLegal (BitVec.ofNat 4 k)) = 7 := by decide
  simp [hcount, wordCount_eq, hlegal]

/-- Settles O4: a word belongs to the row of its reading, so to one row at most. -/
theorem decodeAgreesWithOpcodeTable : Obligations.DecodeAgreesWithOpcodeTable := by
  intro w
  have hrow : ∀ r ∈ commandRows, r.has w = decide (Laws.EncodeRow.row (decodeWord w) = some r) := fun r hr =>
    Bool.eq_iff_iff.2 ((has_iff_row_decodeWord w hr).trans decide_eq_true_iff.symm)
  rw [List.filter_congr hrow, List.find?_congr hrow]
  cases decodeWord w with
  | start d => exact ⟨Nat.le_refl 1, rfl⟩
  | pix p => exact ⟨Nat.le_refl 1, rfl⟩
  | finish => exact ⟨Nat.le_refl 1, rfl⟩
  | illegal v => exact ⟨Nat.zero_le 1, rfl⟩

/-- Settles O5, by evaluation. -/
theorem writtenOutWordsDecode : Obligations.WrittenOutWordsDecode := ⟨rfl, rfl, rfl, rfl, rfl, rfl, rfl⟩
end

section
/-! PROOF. The code stream of a raster: sections of data codes between `CLEAR`s, and the widths of R93
(30_encoding.md R92, R93; 41_code_writer.md R135). -/

namespace Sys2Proof.Reference

/-- R92: what follows a `CLEAR`: at least one data code, each one a literal or an entry's code, the first a literal. -/
def DataSection (d : Nat) (sec : List Nat) : Prop :=
  sec ≠ [] ∧ (∀ c ∈ sec.head?, c < 2 ^ d) ∧ ∀ c ∈ sec, c < 2 ^ d ∨ (firstFree d ≤ c ∧ c < 4096)

/-- R93: a section's codes with their widths, data code `k` at index `k - 1`. -/
def numbered (d : Nat) (sec : List Nat) : List (Nat × Nat) := sec.zipIdx.map fun x => (x.1, codeWidth d (x.2 + 1))

/-- R135: how many data codes a section has that runs into a full table. -/
abbrev fullSection (d : Nat) : Nat := 4096 - firstFree d + 1

/-- R92: the codes are those of `data+ (CLEAR data+)* EOI`, all sections but the last full. -/
def HasSections (d : Nat) (cs : List (Nat × Nat)) : Prop :=
  ∃ (sections : List (List Nat)) (last : List Nat),
    (∀ sec ∈ sections, sec.length = fullSection d) ∧
    last.length ≤ fullSection d ∧
    (∀ sec ∈ sections ++ [last], DataSection d sec) ∧
    cs = (sections.flatMap fun sec => numbered d sec ++ [(2 ^ d, 12)]) ++ numbered d last ++
      [(2 ^ d + 1, codeWidth d (last.length + 1))]

variable {d : Nat}

theorem numbered_push (sec : List Nat) (c : Nat) :
    numbered d (sec ++ [c]) = numbered d sec ++ [(c, codeWidth d (sec.length + 1))] := by
  simp [numbered, List.zipIdx_append]

/-- An empty table leaves the codes a range. -/
theorem firstFree_le (h8 : d ≤ 8) : firstFree d ≤ 4096 := by
  have hclear : 2 ^ d ≤ 256 := Nat.pow_le_pow_right (n := 2) (by decide) h8
  simp only [firstFree]
  omega

/-! ## Data sections -/

theorem DataSection.literal {p : Nat} (hp : p < 2 ^ d) : DataSection d [p] :=
  ⟨by simp, by simpa using hp, by simpa using Or.inl hp⟩

/-- A further code leaves the first one in its place. -/
theorem DataSection.push {sec : List Nat} {pairs : List (Nat × Nat)} {c : Nat} (h : DataSection d sec)
    (hc : Names d pairs c) (hlim : firstFree d + pairs.length ≤ 4096) : DataSection d (sec ++ [c]) := by
  obtain ⟨hne, hhead, hall⟩ := h
  refine ⟨by simp, by rwa [List.head?_append_of_ne_nil _ hne], fun x hx => ?_⟩
  rcases List.mem_append.1 hx with hx | hx
  · exact hall x hx
  · rw [List.mem_singleton.1 hx]
    exact hc.imp_right fun ⟨hge, hlt⟩ => ⟨hge, by omega⟩

theorem DataSection.of_push {sec : List Nat} {c : Nat} (h : DataSection d (sec ++ [c])) (hne : sec ≠ []) :
    DataSection d sec := by
  obtain ⟨-, hhead, hall⟩ := h
  exact ⟨hne, by rwa [List.head?_append_of_ne_nil _ hne] at hhead, fun x hx => hall x (by simp [hx])⟩

/-! ## Streams of sections -/

/-- The stream ends after a section: `EOI` in the position after its last data code. -/
theorem HasSections.last {sec : List Nat} (h : DataSection d sec) (hlen : sec.length ≤ fullSection d) :
    HasSections d (numbered d sec ++ [(2 ^ d + 1, codeWidth d (sec.length + 1))]) :=
  ⟨[], sec, by simp, hlen, by simpa using h, by simp⟩

/-- A full section and its `CLEAR` in front. -/
theorem HasSections.cons {sec : List Nat} {cs : List (Nat × Nat)} (h : DataSection d sec)
    (hlen : sec.length = fullSection d) (hcs : HasSections d cs) :
    HasSections d (numbered d sec ++ (2 ^ d, 12) :: cs) := by
  obtain ⟨sections, last, hfull, hlast, hall, rfl⟩ := hcs
  exact ⟨sec :: sections, last, List.forall_mem_cons.2 ⟨hlen, hfull⟩, hlast, List.forall_mem_cons.2 ⟨h, hall⟩, by simp⟩

/-- R92, R135: the codes to come complete the section whose codes so far, one for each pair entered, are `sec`. -/
theorem codesFrom_hasSections (ps : List Nat) : ∀ (pairs : List (Nat × Nat)) (q : Nat) (sec : List Nat),
    sec.length = pairs.length → firstFree d + pairs.length ≤ 4096 → DataSection d (sec ++ [q]) →
    (∀ p ∈ ps, p < 2 ^ d) → HasSections d (numbered d sec ++ codesFrom d pairs q ps) := by
  induction ps with
  | nil =>
    intro pairs q sec hlen hlim hsec _
    have h := HasSections.last hsec (by simp only [List.length_append, List.length_singleton, fullSection]; omega)
    rw [numbered_push, List.length_append, List.length_singleton, hlen] at h
    simpa [codesFrom] using h
  | cons p ps ih =>
    intro pairs q sec hlen hlim hsec hps
    obtain ⟨hp, hps⟩ := List.forall_mem_cons.1 hps
    have hnumbered : ∀ cs, numbered d sec ++ (q, codeWidth d (pairs.length + 1)) :: cs =
        numbered d (sec ++ [q]) ++ cs := fun cs => by rw [numbered_push, hlen]; simp
    rw [codesFrom]
    split
    case isTrue hknown =>
      have hne : sec ≠ [] := by
        rintro rfl
        have hpos := List.length_pos_of_mem hknown
        rw [← hlen] at hpos
        exact absurd hpos (by simp)
      exact ih pairs _ sec hlen hlim ((hsec.of_push hne).push (.idxOf hknown) hlim) hps
    case isFalse =>
      split
      case isTrue hroom =>
        rw [hnumbered]
        have hnext : firstFree d + (pairs ++ [(q, p)]).length ≤ 4096 := by
          rw [List.length_append, List.length_singleton]; omega
        exact ih _ p (sec ++ [q]) (by simp [hlen]) hnext (hsec.push (.inl hp) hlim) hps
      case isFalse hfull =>
        rw [hnumbered]
        refine .cons hsec (by simp only [List.length_append, List.length_singleton, fullSection]; omega) ?_
        exact ih [] p [] rfl (Nat.le_of_add_right_le hlim) (.literal hp) hps

/-- R93: every code of a raster fits its width. -/
theorem codes_fits {ps : List Nat} (h2 : 2 ≤ d) (h8 : d ≤ 8) (hne : ps ≠ []) (hps : ∀ p ∈ ps, p < 2 ^ d) :
    ∀ x ∈ codes d ps, x.1 < 2 ^ x.2 := by
  obtain ⟨p, ps, rfl⟩ := List.exists_cons_of_ne_nil hne
  obtain ⟨hp, hps⟩ := List.forall_mem_cons.1 hps
  rw [codes_cons]
  exact List.forall_mem_cons.2 ⟨Nat.pow_lt_pow_right (by decide) (Nat.lt_succ_self d),
    codesFrom_fits h2 h8 ps [] p (.inl hp) (firstFree_le h8) hps⟩

end Sys2Proof.Reference

open Sys2Proof Sys2Proof.Machine

/-- Settles O30, from R37 items 5 to 7: the number of pairs entered is `NEXT_CODE - FIRST_FREE`. -/
theorem widthFollowsClosedFormula : Obligations.WidthFollowsClosedFormula := by
  intro s hs
  exact hs.width_eq rfl (Nat.add_sub_of_le hs.nextCode_range.1).symm

/-- Settles O46, by induction on the pixels with the section in progress. -/
theorem codeStreamHasItsGrammar : Obligations.CodeStreamHasItsGrammar := by
  intro d ps h2 h8 hne hps
  have hfits := Reference.codes_fits h2 h8 hne hps
  obtain ⟨p, ps, rfl⟩ := List.exists_cons_of_ne_nil hne
  obtain ⟨hp, hps⟩ := List.forall_mem_cons.1 hps
  obtain ⟨sections, last, hfull, hlast, hall, hcs⟩ := Reference.codesFrom_hasSections ps [] p [] rfl
    (Reference.firstFree_le h8) (.literal hp) hps
  exact ⟨sections, last, hfull, hlast, hall, (Reference.codes_cons d p ps).trans (congrArg _ hcs), hfits⟩
end

section
/-! PROOF. The bytes of a raster: sub-blocks and terminator around the packed bit stream (30_encoding.md R90, R91;
42_bit_packer.md R156). -/

namespace Sys2Proof.Reference

/-- A full group at the head is the first sub-block. -/
theorem frame_group {g rest : List (BitVec 8)} (h : g.length = 254) :
    frame (g ++ rest) = (BitVec.ofNat 8 g.length :: g) ++ frame rest := by
  rw [frame, frame, fullBlocks_group h, lastGroup_group h, h]
  simp

/-- What fits one sub-block is one. -/
theorem frame_single {bs : List (BitVec 8)} (hne : bs ≠ []) (hle : bs.length ≤ 254) :
    frame bs = (BitVec.ofNat 8 bs.length :: bs) ++ [0#8] := by
  rcases Nat.lt_or_eq_of_le hle with hlt | heq
  · rw [frame, fullBlocks_of_short hlt, lastGroup_of_short hlt, if_neg hne, List.nil_append]
  · have h := frame_group (rest := []) heq
    rwa [List.append_nil] at h

/-- R90, R156: sub-block by sub-block, only the last one not full. -/
theorem frame_layout (bs : List (BitVec 8)) (hne : bs ≠ []) :
    ∃ (full : List (List (BitVec 8))) (last : List (BitVec 8)), (∀ b ∈ full, b.length = 254) ∧ 1 ≤ last.length ∧ last.length ≤ 254 ∧
    frame bs = ((full ++ [last]).flatMap fun b => BitVec.ofNat 8 b.length :: b) ++ [0#8] ∧
    (full ++ [last]).flatten = bs := by
  induction h : bs.length using Nat.strong_induction_on generalizing bs with
  | _ n ih =>
    subst h
    by_cases hle : bs.length ≤ 254
    · exact ⟨[], bs, by simp, List.length_pos_iff.2 hne, hle, by simpa using frame_single hne hle, by simp⟩
    · have hgroup : (bs.take 254).length = 254 := by rw [List.length_take]; omega
      have hrest : (bs.drop 254).length = bs.length - 254 := List.length_drop
      obtain ⟨full, last, hfull, hpos, hlast, hframe, hdata⟩ :=
        ih _ (by omega) (bs.drop 254) (List.length_pos_iff.1 (by omega)) rfl
      refine ⟨bs.take 254 :: full, last, List.forall_mem_cons.2 ⟨hgroup, hfull⟩, hpos, hlast, ?_, ?_⟩
      · calc frame bs = frame (bs.take 254 ++ bs.drop 254) := by rw [List.take_append_drop]
          _ = _ := by rw [frame_group hgroup, hframe]; simp
      · rw [List.cons_append, List.flatten_cons, hdata, List.take_append_drop]

/-! ## At least two bytes -/

theorem codeWidth_ge {d : Nat} (h8 : d ≤ 8) (k : Nat) : d + 1 ≤ codeWidth d k := by
  unfold codeWidth
  split <;> omega

/-- The last data code and the `EOI` are still to come. -/
theorem bitCount_codesFrom_ge {d : Nat} (h8 : d ≤ 8) (ps : List Nat) : ∀ (pairs : List (Nat × Nat)) (q : Nat),
    2 * (d + 1) ≤ bitCount (codesFrom d pairs q ps) := by
  induction ps with
  | nil =>
    intro pairs q
    have hdata := codeWidth_ge h8 (pairs.length + 1)
    have heoi := codeWidth_ge h8 (pairs.length + 2)
    simp only [codesFrom, bitCount]
    omega
  | cons p ps ih =>
    intro pairs q
    rw [codesFrom]
    split
    · exact ih pairs _
    · split
      · exact Nat.le_add_left_of_le (ih _ p)
      · exact Nat.le_add_left_of_le (Nat.le_add_left_of_le (ih [] p))

/-- R91: `CLEAR`, a data code and `EOI` have nine bits at least. -/
theorem two_le_length_bytes {d : Nat} {ps : List Nat} (h2 : 2 ≤ d) (h8 : d ≤ 8) (hne : ps ≠ []) :
    2 ≤ (bytes (codes d ps)).length := by
  obtain ⟨p, ps, rfl⟩ := List.exists_cons_of_ne_nil hne
  have hrest := bitCount_codesFrom_ge h8 ps [] p
  rw [bytes, lowBytes_length, codes_cons, bitCount]
  omega

end Sys2Proof.Reference

open Sys2Proof Sys2Proof.Machine

/-- Settles O47: the layout of a frame, for the at least two bytes of a raster's codes. -/
theorem compressedRasterHasItsLayout : Obligations.CompressedRasterHasItsLayout := by
  intro emitMcs d ps h2 h8 hne _
  have hlen := Reference.two_le_length_bytes h2 h8 hne
  obtain ⟨full, last, hfull, hpos, hlast, hframe, hdata⟩ :=
    Reference.frame_layout (Reference.bytes (Reference.codes d ps)) (List.length_pos_iff.1 (by omega))
  refine ⟨full, last, hfull, hpos, hlast, ?_, hdata, hlen⟩
  rw [Reference.compress, hframe, List.append_assoc]
end

section
/-! PROOF. A whole raster on the machine: `START`, the pixels and `FINISH`, command by command along the events that the
host sends (40_dictionary_builder.md R110 to R117, R120). -/

namespace Sys2Proof.Reference

theorem Encoder.pixel_pending_isSome (d : Nat) (e : Encoder) (p : Nat) : (e.pixel d p).pending.isSome := by
  unfold Encoder.pixel
  cases e.pending with
  | none => rfl
  | some q =>
    simp only
    split
    · rfl
    · split <;> rfl

/-- After a pixel there is a code pending. -/
theorem encoderAfter_pending_isSome (d : Nat) {ps : List Nat} (hne : ps ≠ []) :
    (encoderAfter d ps).pending.isSome := by
  obtain ⟨init, p, rfl⟩ := (List.eq_nil_or_concat ps).resolve_left hne
  rw [encoderAfter, List.concat_eq_append, List.foldl_append]
  exact Encoder.pixel_pending_isSome d _ p

end Sys2Proof.Reference

namespace Sys2Proof.Machine

open Reference

/-! ## Runs -/

theorem run_add {m n : Nat} {s t : State} (h : Sys2Proof.core.run m s = .next t) :
    Sys2Proof.core.run (m + n) s = Sys2Proof.core.run n t := by
  induction m generalizing s with
  | zero => cases h; rw [Nat.zero_add]
  | succ m ih =>
    rw [Nat.succ_add]
    cases hs : step s with
    | next u =>
      simp only [Host.Core.run, Sys2Proof.core, hs] at h ⊢
      exact ih h
    | fault e => simp [Host.Core.run, Sys2Proof.core, hs] at h
    | refused e => simp [Host.Core.run, Sys2Proof.core, hs] at h

/-- R20: one step performs the next command that the host sends. -/
theorem run_command {i : Instr} {is : List Instr} {rest : List PortEvent} {s t : State} (hi : i.wf = true)
    (hinput : s.input = send (i :: is) ++ rest) (h : exec i { s with input := send is ++ rest } = .next t) :
    Sys2Proof.core.run 1 s = .next t := by
  have hstep : step s = .next t := by
    rw [step_accept hinput, decodeWord_encode hi]
    exact h
  simp only [Host.Core.run, Sys2Proof.core, hstep]

/-! ## The machine follows the reference encoder -/

/-- What the host sends next is no part of where the raster is. -/
theorem Follows.with_input {z t : State} {d : Nat} {e : Encoder} (h : Follows z t d e) (input : List PortEvent) :
    Follows { z with input := input } { t with input := input } d e :=
  { h with
    inv := h.inv.with_ports input t.taken
    stream := { h.stream with stored := { h.stream.stored with } }
    input_eq := rfl }

/-- R113: the pixels of a raster, one step for each. -/
theorem Follows.run_pixels {z t : State} {d : Nat} {e : Encoder} {rest : List PortEvent} (ps : List Pixel)
    (is : List Instr) (h : Follows z t d e) (hps : ∀ p ∈ ps, p.toNat < 2 ^ d)
    (hinput : t.input = send (ps.map .pix ++ is) ++ rest) :
    ∃ u, Sys2Proof.core.run ps.length t = .next u ∧
      Follows { z with input := send is ++ rest } u d ((ps.map (·.toNat)).foldl (Encoder.pixel d) e) := by
  induction ps generalizing z t e with
  | nil =>
    refine ⟨t, rfl, ?_⟩
    rw [show send is ++ rest = t.input from hinput.symm]
    exact h.with_input t.input
  | cons p ps ih =>
    obtain ⟨hp, hps⟩ := List.forall_mem_cons.1 hps
    obtain ⟨u, hu, hfollows⟩ := follows_pixel (h.with_input (send (ps.map .pix ++ is) ++ rest)) hp
    obtain ⟨v, hv, hlast⟩ := ih hfollows hps hfollows.input_eq
    refine ⟨v, ?_, hlast⟩
    rw [List.length_cons, Nat.add_comm, run_add (run_command rfl hinput hu), hv]

/-- The packer's state in which the stream of a raster begins: `START`'s registers and the minimum-code-size byte. -/
theorem emitMinCodeSize_startRegisters_out (d : DepthField) (s : State) :
    (emitMinCodeSize (startRegisters d s)).out = s.out ++ (if s.emitMcs then [BitVec.ofNat 8 d.toNat] else []) := by
  rw [emitMinCodeSize_out, startRegisters_out, startRegisters_depth, startRegisters_emitMcs, BitVec.ofNat_toNat]

/-- R117: the run of a whole raster from `IDLE` or `DONE`, with what a raster after it needs. -/
theorem run_raster {s : State} {d : DepthField} {ps : List Pixel} {rest : List PortEvent}
    (hphase : s.phase = .idle ∨ s.phase = .done) (herr : s.errcode = .none) (h2 : 2 ≤ d.toNat) (h8 : d.toNat ≤ 8)
    (hne : ps ≠ []) (hps : ∀ p ∈ ps, p.toNat < 2 ^ d.toNat) (hinput : s.input = send (rasterCommands d ps) ++ rest) :
    ∃ t, Sys2Proof.core.run (ps.length + 2) s = .next t ∧ t.phase = .done ∧ t.errcode = .none ∧ t.input = rest ∧
      t.emitMcs = s.emitMcs ∧ t.out = s.out ++ compress s.emitMcs d.toNat (ps.map (·.toNat)) := by
  obtain ⟨t, ht, hstart⟩ := follows_start (s := { s with input := send (ps.map .pix ++ [.finish]) ++ rest })
    hphase herr h2 h8
  obtain ⟨u, hu, hpixels⟩ := hstart.run_pixels (rest := rest) ps [.finish] hps (by rw [hstart.input_eq]; simp)
  have hpending := encoderAfter_pending_isSome d.toNat (ps := ps.map (·.toNat)) (by simpa using hne)
  obtain ⟨v, hv, hdone, hnone, hin, hmcs, hout⟩ := follows_finish (hpixels.with_input rest) hpending
    (pendingBytes_empty (by simp))
  have hlast : Sys2Proof.core.run 1 u = .next v :=
    run_command (is := []) rfl hpixels.input_eq hv
  refine ⟨v, ?_, hdone, hnone, hin, by simpa using hmcs, ?_⟩
  · rw [show ps.length + 2 = 1 + (ps.length + 1) by omega, run_add (run_command rfl hinput ht), run_add hu, hlast]
  · rw [hout]
    simp only [emitMinCodeSize_startRegisters_out, compress, codes, encoderAfter, List.append_assoc]

end Sys2Proof.Machine

open Sys2Proof Sys2Proof.Machine

/-- Settles O43, by simulation: the machine follows the reference encoder, by induction on the pixels. -/
theorem rasterAppendsExactlyCompress : Obligations.RasterAppendsExactlyCompress := by
  intro s d ps rest hphase herr h2 h8 hne hps hinput
  obtain ⟨t, hrun, hdone, hnone, hin, -, hout⟩ := run_raster hphase herr h2 h8 hne hps hinput
  exact ⟨t, hrun, hdone, hnone, hin, hout⟩

/-- Settles O44: the first raster ends in `DONE` with `ERRCODE = 0`, where the second may start. -/
theorem backToBackRastersAreIndependent : Obligations.BackToBackRastersAreIndependent := by
  intro s d ps d' ps' rest hphase herr h2 h8 hne hps h2' h8' hne' hps' hinput
  have hsplit : s.input = send (rasterCommands d ps) ++ (send (rasterCommands d' ps') ++ rest) := by
    rw [hinput, ← List.append_assoc]
    exact congrArg (· ++ rest) List.map_append
  obtain ⟨t, hrun, hdone, hnone, hin, hmcs, hout⟩ := run_raster hphase herr h2 h8 hne hps hsplit
  obtain ⟨u, hrun', hdone', -, hin', -, hout'⟩ := run_raster (.inr hdone) hnone h2' h8' hne' hps' hin
  exact ⟨u, by rw [run_add hrun, hrun'], hdone', hin', by rw [hout', hout, hmcs]⟩
end

section
/-! PROOF. The round trip of a raster through the GIF decoder (40_dictionary_builder.md R118; 95_test_vectors.md
section 7): the reader stays one entry behind the encoder. -/

namespace Sys2Proof.Reference

/-- A frame is longer than what it frames, by the length bytes and the terminator. -/
theorem length_frame_ge (bs : List (BitVec 8)) (hne : bs ≠ []) : bs.length + 2 ≤ (frame bs).length := by
  obtain ⟨full, last, -, -, -, hframe, hdata⟩ := frame_layout bs hne
  have hlen : ∀ l : List (List (BitVec 8)),
      (l.flatMap fun b => BitVec.ofNat 8 b.length :: b).length = l.length + l.flatten.length := by
    intro l
    induction l with
    | nil => rfl
    | cons b l ih => simp only [List.flatMap_cons, List.flatten_cons, List.length_append, List.length_cons, ih]; omega
  rw [hframe, List.length_append, hlen, hdata, List.length_append]
  simp only [List.length_singleton]
  omega

/-- R134: after the code that fills the table the width is 12. -/
theorem codeWidth_of_full {d n : Nat} (h2 : 2 ≤ d) (h8 : d ≤ 8) (hn : firstFree d + n = 4096) :
    codeWidth d (n + 2) = 12 := by
  obtain ⟨-, hle, hfit, -⟩ := codeWidth_bounds h2 h8 (Nat.le_of_eq hn)
  have hw : codeWidth d (n + 1) = 12 := by
    by_contra hne
    have hpow : 2 ^ codeWidth d (n + 1) ≤ 2 ^ 11 := Nat.pow_le_pow_right (by decide) (by omega)
    omega
  rw [codeWidth_next h2 h8 (Nat.le_of_eq hn), hw]
  exact if_neg (by simp)

end Sys2Proof.Reference

namespace Sys2Proof.GifDecoder

open Reference

variable {d : Nat}

/-! ## The codes that are no data -/

theorem loop_clear {fuel v left w : Nat} {table : Option (List (List Nat))} {prev : Option (List Nat)}
    (hfit : 2 ^ d < 2 ^ w) (hl : w ≤ left) :
    loop d (fuel + 1) (2 ^ d + 2 ^ w * v) left table w prev = loop d fuel v (left - w) (some []) (d + 1) none := by
  have hmod : (2 ^ d + 2 ^ w * v) % 2 ^ w = 2 ^ d := by rw [Nat.add_mul_mod_self_left, Nat.mod_eq_of_lt hfit]
  have hdiv : (2 ^ d + 2 ^ w * v) / 2 ^ w = v := by
    rw [Nat.add_mul_div_left _ _ (by positivity), Nat.div_eq_of_lt hfit, Nat.zero_add]
  rw [loop, if_neg (by omega)]
  simp only [hmod, hdiv, if_true]

theorem loop_eoi {fuel left w : Nat} {table : Option (List (List Nat))} {prev : Option (List Nat)}
    (hfit : 2 ^ d + 1 < 2 ^ w) (hl : w ≤ left) (hpad : left < w + 8) :
    loop d (fuel + 1) (2 ^ d + 1) left table w prev = some [] := by
  rw [loop, if_neg (by omega)]
  simp only [Nat.mod_eq_of_lt hfit, Nat.div_eq_of_lt hfit]
  rw [if_neg (by omega), if_pos trivial, if_pos ⟨by omega, trivial⟩]

/-! ## The encoder's state between two codes -/

theorem stringIn_literal {p : Nat} (table : List (List Nat)) (hp : p < 2 ^ d) : stringIn d table p = [p] := if_pos hp

/-- What `loop_codesFrom` says when the table is empty, in the terms in which a `CLEAR` leaves the reader. -/
theorem loop_emptyTable {fuel v left p : Nat} {ps : List Nat} (hp : p < 2 ^ d)
    (h : loop d fuel v left (lagging d []).1 (codeWidth d 1) (lagging d []).2 =
      some (stringIn d (strings d []) p ++ ps)) :
    loop d fuel v left (some []) (d + 1) none = some (p :: ps) := by
  rw [stringIn_literal _ hp] at h
  exact h

theorem Pending.literal {p : Nat} (hp : p < 2 ^ d) (h8 : d ≤ 8) : Pending d [] p where
  built := .nil d
  names := .inl hp
  limit := firstFree_le h8
  starts := nofun

/-- R113 case B: the entry's string is the pending one and the pixel. -/
theorem stringIn_idxOf {pairs : List (Nat × Nat)} {q p : Nat} (h : Built d pairs) (hmem : (q, p) ∈ pairs) :
    stringIn d (strings d pairs) (firstFree d + pairs.idxOf (q, p)) = stringIn d (strings d pairs) q ++ [p] :=
  stringIn_entry h (List.getElem?_idxOf hmem)

theorem Pending.extend {pairs : List (Nat × Nat)} {q p : Nat} (h : Pending d pairs q) (hmem : (q, p) ∈ pairs) :
    Pending d pairs (firstFree d + pairs.idxOf (q, p)) where
  built := h.built
  names := .idxOf hmem
  limit := h.limit
  starts x hx := by
    rw [stringIn_idxOf h.built hmem, List.head?_append_of_ne_nil _ (stringIn_ne_nil h.names)]
    exact h.starts x hx

/-- R113 case C1. -/
theorem Pending.enter {pairs : List (Nat × Nat)} {q p : Nat} (h : Pending d pairs q) (hp : p < 2 ^ d)
    (hroom : firstFree d + pairs.length < 4096) : Pending d (pairs ++ [(q, p)]) p where
  built := h.built.push h.names hp
  names := .inl hp
  limit := by rw [List.length_append, List.length_singleton]; omega
  starts x hx := by
    obtain rfl : (q, p) = x := by simpa using hx
    rw [stringIn_literal _ hp]
    rfl

/-! ## The whole code stream -/

/-- The reader, when it holds what `lagging` says, outputs the pending string and the pixels still to come. -/
theorem loop_codesFrom (h2 : 2 ≤ d) (h8 : d ≤ 8) (ps : List Nat) : ∀ (pairs : List (Nat × Nat)) (q fuel left : Nat),
    Pending d pairs q → (∀ p ∈ ps, p < 2 ^ d) → bitCount (codesFrom d pairs q ps) ≤ left →
    left < bitCount (codesFrom d pairs q ps) + 8 → left < fuel →
    loop d fuel (bitValue (codesFrom d pairs q ps)) left (lagging d pairs).1 (codeWidth d (pairs.length + 1))
      (lagging d pairs).2 = some (stringIn d (strings d pairs) q ++ ps) := by
  induction ps with
  | nil =>
    intro pairs q fuel left h _ hle hlt hfuel
    have hw := codeWidth_ge h8 (pairs.length + 1)
    simp only [codesFrom, bitCount, bitValue, Nat.mul_zero, Nat.add_zero] at hle hlt ⊢
    obtain ⟨fuel, rfl⟩ : ∃ k, fuel = k + 2 := ⟨fuel - 2, by omega⟩
    rw [loop_data h2 h8 h (by omega), loop_eoi (eoi_fits h2 h8 h.limit) (by omega) (by omega)]
    rfl
  | cons p ps ih =>
    intro pairs q fuel left h hps hle hlt hfuel
    obtain ⟨hp, hps⟩ := List.forall_mem_cons.1 hps
    have hw := codeWidth_ge h8 (pairs.length + 1)
    rw [codesFrom] at hle hlt ⊢
    split at hle
    case isTrue hknown =>
      rw [if_pos hknown] at hlt ⊢
      rw [ih pairs _ fuel left (h.extend hknown) hps hle hlt hfuel, stringIn_idxOf h.built hknown, List.append_assoc]
      rfl
    case isFalse hnovel =>
      rw [if_neg hnovel] at hlt ⊢
      split at hle
      case isTrue hroom =>
        rw [if_pos hroom] at hlt ⊢
        simp only [bitCount, bitValue] at hle hlt ⊢
        obtain ⟨fuel, rfl⟩ : ∃ k, fuel = k + 1 := ⟨fuel - 1, by omega⟩
        have hlag : lagging d (pairs ++ [(q, p)]) = (some (strings d pairs), some (stringIn d (strings d pairs) q)) := by
          simp [lagging]
        have hnext := ih _ p fuel (left - codeWidth d (pairs.length + 1)) (h.enter hp hroom) hps (by omega) (by omega)
          (by omega)
        rw [hlag, List.length_append, List.length_singleton] at hnext
        rw [loop_data h2 h8 h (by omega), hnext, stringIn_literal _ hp]
        rfl
      case isFalse hfull =>
        rw [if_neg hfull] at hlt ⊢
        simp only [bitCount, bitValue] at hle hlt ⊢
        obtain ⟨fuel, rfl⟩ : ∃ k, fuel = k + 2 := ⟨fuel - 2, by omega⟩
        have hlim := h.limit
        have hnext := ih [] p fuel (left - codeWidth d (pairs.length + 1) - 12) (.literal hp h8) hps (by omega) (by omega)
          (by omega)
        rw [loop_data h2 h8 h (by omega), codeWidth_of_full h2 h8 (by omega),
          loop_clear (Nat.pow_lt_pow_right (by decide) (by omega)) (by omega), loop_emptyTable hp hnext]
        rfl

theorem streamValue_bytes {cs : List (Nat × Nat)} (h : ∀ x ∈ cs, x.1 < 2 ^ x.2) :
    streamValue (bytes cs) = bitValue cs := by
  have hle : 2 ^ bitCount cs ≤ 256 ^ ((bitCount cs + 7) / 8) := by
    rw [show (256 : Nat) = 2 ^ 8 by rfl, ← Nat.pow_mul]
    exact Nat.pow_le_pow_right (by decide) (by omega)
  rw [bytes, streamValue_lowBytes, Nat.mod_eq_of_lt (Nat.lt_of_lt_of_le (bitValue_lt h) hle)]

/-- R118: the data bytes of a raster are read back as its pixels. -/
theorem decodeData_bytes {ps : List Nat} (h2 : 2 ≤ d) (h8 : d ≤ 8) (hne : ps ≠ []) (hps : ∀ p ∈ ps, p < 2 ^ d) :
    decodeData d (bytes (codes d ps)) = some ps := by
  have hvalue := streamValue_bytes (codes_fits h2 h8 hne hps)
  have hlen : (bytes (codes d ps)).length = (bitCount (codes d ps) + 7) / 8 := lowBytes_length ..
  obtain ⟨p, ps, rfl⟩ := List.exists_cons_of_ne_nil hne
  obtain ⟨hp, hps⟩ := List.forall_mem_cons.1 hps
  rw [decodeData, hvalue]
  rw [codes_cons] at hlen ⊢
  simp only [bitCount, bitValue] at hlen ⊢
  have hrest := loop_codesFrom h2 h8 ps [] p (8 * (bytes ((2 ^ d, d + 1) :: codesFrom d [] p ps)).length)
    (8 * (bytes ((2 ^ d, d + 1) :: codesFrom d [] p ps)).length - (d + 1)) (.literal hp h8) hps (by omega) (by omega)
    (by omega)
  rw [loop_clear (Nat.pow_lt_pow_right (by decide) (by omega)) (by omega), loop_emptyTable hp hrest]

/-- R90: the frame of a raster's bytes is read back as the bytes, given a bound on the number of blocks. -/
theorem unframe_frame_bytes {ps : List Nat} {fuel : Nat} (h2 : 2 ≤ d) (h8 : d ≤ 8) (hne : ps ≠ [])
    (hfuel : (frame (bytes (codes d ps))).length < fuel) :
    unframe fuel (frame (bytes (codes d ps))) = some (bytes (codes d ps)) := by
  have hbytes := two_le_length_bytes h2 h8 hne
  have hlen := length_frame_ge (bytes (codes d ps)) (List.length_pos_iff.1 (by omega))
  exact unframe_frame _ _ (by omega)

end Sys2Proof.GifDecoder

open Sys2Proof Sys2Proof.GifDecoder

/-- Settles O45: framing, packing and the code stream are each undone; the code stream by induction on the pixels. -/
theorem decoderReturnsTheRaster : Obligations.DecoderReturnsTheRaster := by
  intro d ps h2 h8 hne hps
  have hdata := decodeData_bytes h2 h8 hne hps
  have hd : (BitVec.ofNat 8 d).toNat = d := by rw [BitVec.toNat_ofNat]; omega
  constructor
  · simp only [Reference.compress, if_true, List.singleton_append, decode]
    rw [unframe_frame_bytes h2 h8 hne (Nat.lt_succ_self _), Option.bind_some, hd, hdata]
  · simp only [Reference.compress, Bool.false_eq_true, if_false, List.nil_append]
    rw [unframe_frame_bytes h2 h8 hne (Nat.lt_succ_self _), Option.bind_some, hdata]
end

section
/-! PROOF. What each command answers, as an equation for each of its cases (40_dictionary_builder.md R110 to R116). -/

namespace Sys2Proof.Machine

open Reference

/-! ## The checks that commands share (R176) -/

theorem whenLegal_of_err (legal : List Phase) {s : State} (k : Result) (h : s.phase = .err) :
    whenLegal legal s k = .next s := if_pos h

theorem whenLegal_of_mem {legal : List Phase} {s : State} (k : Result) (hne : s.phase ≠ .err) (h : s.phase ∈ legal) :
    whenLegal legal s k = k := by
  unfold whenLegal
  rw [if_neg hne, if_pos h]

theorem whenLegal_of_not_mem {legal : List Phase} {s : State} (k : Result) (hne : s.phase ≠ .err)
    (h : s.phase ∉ legal) : whenLegal legal s k = .next (raise .seq s) := by
  unfold whenLegal
  rw [if_neg hne, if_neg h]

/-! ## START -/

section Start
variable {s : State} {d : DepthField}

theorem execStart_of_run (h : s.phase = .run) : execStart d s = .next (raise .seq s) :=
  whenLegal_of_not_mem _ (by simp [h]) (by simp [h])

theorem execStart_of_idle_or_done (h : s.phase = .idle ∨ s.phase = .done) :
    execStart d s = if depthLegal d then startRaster d s else .next (raise .depth s) :=
  whenLegal_of_mem _ (by rcases h with h | h <;> simp [h]) (by simpa using h)

end Start

/-! ## PIX -/

section Pix
variable {s : State} {p : Pixel}

theorem literalCode_eq_ofNat (p : Pixel) : literalCode p = BitVec.ofNat 12 p.toNat :=
  (BitVec.ofNat_toNat 12 p).symm

theorem execPix_of_run (hp : s.phase = .run) (hlt : p.toNat < 2 ^ s.depth.toNat) : execPix p s = consumePixel p s := by
  unfold execPix
  rw [whenLegal_of_mem _ (by simp [hp]) (by simp [hp]), if_pos (pixelInPalette_iff.2 hlt)]

theorem consumePixel_first (hh : s.havePrefix = false) :
    consumePixel p s = .next { setPrefix (literalCode p) s with havePrefix := true } := by
  unfold consumePixel
  rw [hh]
  rfl

theorem consumePixel_known {c : Code} (hh : s.havePrefix = true) (hc : dictLookup s.prefixCode p s = some c) :
    consumePixel p s = .next (setPrefix c s) := by
  unfold consumePixel
  rw [if_pos hh, hc]

theorem consumePixel_novel (hh : s.havePrefix = true) (hl : dictLookup s.prefixCode p s = none) :
    consumePixel p s = novelPair p s := by
  unfold consumePixel
  rw [if_pos hh, hl]

theorem emitCode_of_packBits {c : Code} {u : State} (hu : packBits c.toNat s.width.toNat s = .next u) :
    emitCode c s = .next (widthUpdate u) := by
  unfold emitCode
  rw [hu, andThen_of_next]

/-- R113 case C1. -/
theorem novelPair_entered {u : State} (hu : packBits s.prefixCode.toNat s.width.toNat s = .next u)
    (hroom : s.nextCode.toNat < 4096) :
    novelPair p s = .next (setPrefix (literalCode p) (extendDict s.prefixCode p (widthUpdate u))) := by
  obtain ⟨-, -, -, -, -, -, hnext, -⟩ := (packBits_only hu).fields
  have hlt : (widthUpdate u).nextCode.toNat < codeLimit := by rw [widthUpdate_nextCode, hnext]; exact hroom
  unfold novelPair
  rw [emitCode_of_packBits hu, andThen_of_next, if_pos hlt, andThen_of_next]

/-- R113 case C2. -/
theorem novelPair_cleared {u v : State} (hu : packBits s.prefixCode.toNat s.width.toNat s = .next u)
    (hfull : 4096 ≤ s.nextCode.toNat)
    (hv : packBits (clearCode s.depth) (widthUpdate s).width.toNat (widthUpdate u) = .next v) :
    novelPair p s = .next (setPrefix (literalCode p) (freshTable v)) := by
  obtain ⟨-, -, hdepth, -, -, -, hnext, -⟩ := (packBits_only hu).fields
  have hge : ¬ (widthUpdate u).nextCode.toNat < codeLimit := by
    rw [widthUpdate_nextCode, hnext]
    exact Nat.not_lt.2 hfull
  unfold novelPair clearAndReset
  rw [emitCode_of_packBits hu, andThen_of_next, if_neg hge, widthUpdate_depth, hdepth,
    (packBits_only hu).widthUpdate_width, hv, andThen_of_next, andThen_of_next]

/-- The cases of R113 that answer a pixel below `2^DEPTH` in phase `RUN`. -/
theorem execPix_cases {t : State} (hp : s.phase = .run) (hlt : p.toNat < 2 ^ s.depth.toNat)
    (h : execPix p s = .next t) :
    (s.havePrefix = false ∧ t = { setPrefix (literalCode p) s with havePrefix := true }) ∨
    (s.havePrefix = true ∧ ∃ c, dictLookup s.prefixCode p s = some c ∧ t = setPrefix c s) ∨
    (s.havePrefix = true ∧ dictLookup s.prefixCode p s = none ∧ novelPair p s = .next t) := by
  rcases execPix_next h with ⟨herr, -⟩ | ⟨-, hne, -⟩ | ⟨-, hge, -⟩ | ⟨-, -, hcases⟩
  · simp [hp] at herr
  · exact absurd hp hne
  · exact absurd hlt (Nat.not_lt.2 hge)
  · exact hcases

end Pix

/-! ## FINISH -/

section Finish
variable {s : State}

theorem execFinish_of_idle_or_done (h : s.phase = .idle ∨ s.phase = .done) : execFinish s = .next (raise .seq s) :=
  whenLegal_of_not_mem _ (by rcases h with h | h <;> simp [h]) (by rcases h with h | h <;> simp [h])

theorem execFinish_of_run (h : s.phase = .run) :
    execFinish s = if s.havePrefix then finishRaster s else .next (raise .empty s) :=
  whenLegal_of_mem _ (by simp [h]) (by simp [h])

/-- R116: the operations of `FINISH` in turn. -/
theorem finishRaster_eq {u v x y : State} (hu : packBits s.prefixCode.toNat s.width.toNat s = .next u)
    (hv : packBits (eoiCode s.depth) (widthUpdate s).width.toNat (widthUpdate u) = .next v)
    (hx : drain v = .next x) (hy : flushBlock x = .next y) :
    finishRaster s = .next { terminate y with havePrefix := false, phase := .done } := by
  obtain ⟨-, -, hdepth, -⟩ := (packBits_only hu).fields
  unfold finishRaster emitEOI
  rw [emitCode_of_packBits hu, andThen_of_next, widthUpdate_depth, hdepth, (packBits_only hu).widthUpdate_width, hv,
    andThen_of_next, hx, andThen_of_next, hy, andThen_of_next]

end Finish

end Sys2Proof.Machine
end

section
/-! PROOF. `PHASE` and `ERRCODE` after every step, the opening of a raster, and the pixels that write no code
(40_dictionary_builder.md R110, R111, R113). -/

namespace Sys2Proof.Machine

/-! ## R111: the transition table -/

theorem phaseTable_of_err {s : State} (i : Instr) (h : s.phase = .err) : phaseTable s i = (.err, s.errcode) := by
  unfold phaseTable
  rw [h]

theorem phaseTable_start {s : State} {d : DepthField} (h : s.phase = .idle ∨ s.phase = .done) :
    phaseTable s (.start d) = if 2 ≤ d.toNat ∧ d.toNat ≤ 8 then (.run, s.errcode) else (.err, .depth) := by
  unfold phaseTable
  rcases h with h | h <;> rw [h]

theorem execStart_control {s t : State} {d : DepthField} (h : execStart d s = .next t) :
    (t.phase, t.errcode) = phaseTable s (.start d) := by
  rcases execStart_next h with ⟨hp, rfl⟩ | ⟨hp, rfl⟩ | ⟨hp, hd, rfl⟩ | ⟨hp, h2, h8, hk⟩
  · rw [phaseTable_of_err _ hp, hp]
  · simp [phaseTable, hp]
  · rw [phaseTable_start hp, if_neg (by omega)]
    rfl
  · obtain ⟨hphase, herr, -⟩ := startRaster_fields hk
    rw [phaseTable_start hp, if_pos ⟨h2, h8⟩, hphase, herr]

theorem execPix_control {s t : State} {p : Pixel} (h : execPix p s = .next t) :
    (t.phase, t.errcode) = phaseTable s (.pix p) := by
  rcases execPix_next h with ⟨hp, rfl⟩ | ⟨hne, hrun, rfl⟩ | ⟨hp, hge, rfl⟩ | ⟨hp, hlt, hcases⟩
  · rw [phaseTable_of_err _ hp, hp]
  · cases hp : s.phase with
    | idle => simp [phaseTable, hp]
    | run => exact absurd hp hrun
    | done => simp [phaseTable, hp]
    | err => exact absurd hp hne
  · simp [phaseTable, hp, Nat.not_lt.2 hge]
  · have hkept : t.phase = s.phase ∧ t.errcode = s.errcode := by
      rcases hcases with ⟨-, rfl⟩ | ⟨-, c, -, rfl⟩ | ⟨-, -, hn⟩
      · exact ⟨rfl, rfl⟩
      · exact ⟨rfl, rfl⟩
      · obtain ⟨hphase, herr, -⟩ := novelPair_fields hn
        exact ⟨hphase, herr⟩
    simp [phaseTable, hp, hlt, hkept]

theorem execFinish_control {s t : State} (h : execFinish s = .next t) :
    (t.phase, t.errcode) = phaseTable s .finish := by
  rcases execFinish_next h with ⟨hp, rfl⟩ | ⟨hne, hrun, rfl⟩ | ⟨hp, hh, rfl⟩ |
    ⟨hp, hh, u, v, x, y, hu, hv, hx, hy, rfl⟩
  · rw [phaseTable_of_err _ hp, hp]
  · cases hp : s.phase with
    | idle => simp [phaseTable, hp]
    | run => exact absurd hp hrun
    | done => simp [phaseTable, hp]
    | err => exact absurd hp hne
  · simp [phaseTable, hp, hh]
  · obtain ⟨herr, -⟩ := finishRaster_fields hu hv hx hy
    simp [phaseTable, hp, hh, herr]

theorem execIllegal_control {s t : State} {w : CmdWord} (h : execIllegal w s = .next t) :
    (t.phase, t.errcode) = phaseTable s (.illegal w) := by
  rcases execIllegal_next w h with ⟨hp, rfl⟩ | ⟨hne, rfl⟩
  · rw [phaseTable_of_err _ hp, hp]
  · cases hp : s.phase with
    | err => exact absurd hp hne
    | idle => simp [phaseTable, hp]
    | run => simp [phaseTable, hp]
    | done => simp [phaseTable, hp]

theorem exec_control {i : Instr} {s t : State} (h : exec i s = .next t) : (t.phase, t.errcode) = phaseTable s i := by
  cases i with
  | start d => exact execStart_control h
  | pix p => exact execPix_control h
  | finish => exact execFinish_control h
  | illegal w => exact execIllegal_control h

/-! ## R110: the clear code that opens a raster -/

/-- R150: an empty packer keeps fewer than 8 bits in `ACC`. -/
theorem packBits_empty_short {c w : Nat} {s : State} (hacc : s.acc = 0) (hnacc : s.nacc = 0) (hc : c < 2 ^ 19)
    (hw : w < 8) : packBits c w s = .next { s with acc := BitVec.ofNat 19 c, nacc := BitVec.ofNat 5 w } := by
  have hsum : s.acc.toNat + c <<< s.nacc.toNat = c := by simp [hacc, hnacc]
  have hbits : s.nacc.toNat + w = w := by simp [hnacc]
  unfold packBits
  simp only [hsum, hbits]
  rw [if_pos ⟨hc, by simp only [Config.accBits]; omega⟩, Nat.div_eq_of_lt hw, packLoop]

/-- R150, R151: an empty packer with nothing waiting stores the first byte of 8 bits or more to `BLK[0]`. -/
theorem packBits_empty_byte {c w : Nat} {s : State} (hacc : s.acc = 0) (hnacc : s.nacc = 0) (hcount : s.blkcnt = 0)
    (hc : c < 2 ^ 19) (hw : 8 ≤ w) (hlt : w < 16) :
    packBits c w s = .next { s with
      acc := BitVec.ofNat 19 (c / 256)
      nacc := BitVec.ofNat 5 (w - 8)
      blk := Memory.write s.blk 0 (BitVec.ofNat 8 c)
      blkcnt := 1 } := by
  have hsum : s.acc.toNat + c <<< s.nacc.toNat = c := by simp [hacc, hnacc]
  have hbits : s.nacc.toNat + w = w := by simp [hnacc]
  have hbyte : (BitVec.ofNat 19 c).extractLsb' 0 8 = BitVec.ofNat 8 c := BitVec.eq_of_toNat_eq (by simp)
  have hshift : BitVec.ofNat 19 c >>> 8 = BitVec.ofNat 19 (c / 256) :=
    BitVec.eq_of_toNat_eq (by simp [Nat.shiftRight_eq_div_pow]; omega)
  have hsub : BitVec.ofNat 5 w - 8 = BitVec.ofNat 5 (w - 8) := BitVec.eq_of_toNat_eq (by simp; omega)
  unfold packBits
  simp only [hsum, hbits]
  rw [if_pos ⟨hc, by simp only [Config.accBits]; omega⟩, show w / 8 = 1 by omega, packLoop, if_pos (by simp; omega),
    putByte_eq _ (by simp [hcount]), if_pos (by simp [hcount]), andThen_of_next, packLoop]
  simp only [hcount, hbyte, hshift, hsub]
  rfl

/-- `START`'s writes before the clear code. -/
theorem emitMinCodeSize_startRegisters_eq (d : DepthField) (s : State) :
    emitMinCodeSize (startRegisters d s) = { s with
      phase := .run
      depth := d
      havePrefix := false
      prefixCode := 0
      width := BitVec.ofNat 4 (d.toNat + 1)
      nextCode := BitVec.ofNat 13 (2 ^ d.toNat + 2)
      dict := []
      acc := 0
      nacc := 0
      blkcnt := 0
      out := s.out ++ (if s.emitMcs then [BitVec.ofNat 8 d.toNat] else []) } := by
  have hout := emitMinCodeSize_startRegisters_out d s
  have honly : emitMinCodeSize (startRegisters d s) =
      { startRegisters d s with out := (emitMinCodeSize (startRegisters d s)).out } := by
    unfold emitMinCodeSize
    split <;> rfl
  rw [honly, hout]
  rfl

/-- R110, R150: the state in which a performed `START d` leaves the machine. -/
def openedRaster (d : DepthField) (s : State) : State := { s with
  phase := .run
  depth := d
  havePrefix := false
  prefixCode := 0
  width := BitVec.ofNat 4 (d.toNat + 1)
  nextCode := BitVec.ofNat 13 (2 ^ d.toNat + 2)
  dict := []
  acc := if 7 ≤ d.toNat then BitVec.ofNat 19 (2 ^ d.toNat / 256) else BitVec.ofNat 19 (2 ^ d.toNat)
  nacc := if 7 ≤ d.toNat then BitVec.ofNat 5 (d.toNat + 1 - 8) else BitVec.ofNat 5 (d.toNat + 1)
  blk := if 7 ≤ d.toNat then Memory.write s.blk 0 (BitVec.ofNat 8 (2 ^ d.toNat)) else s.blk
  blkcnt := if 7 ≤ d.toNat then 1 else 0
  out := s.out ++ (if s.emitMcs then [BitVec.ofNat 8 d.toNat] else []) }

theorem startRaster_eq {d : DepthField} (h2 : 2 ≤ d.toNat) (h8 : d.toNat ≤ 8) (s : State) :
    startRaster d s = .next (openedRaster d s) := by
  obtain ⟨-, hclear, -⟩ := clear_bounds ⟨h2, h8⟩
  have hfits : clearCode d < 2 ^ 19 := Nat.lt_of_le_of_lt hclear (by decide)
  unfold startRaster openedRaster
  rw [emitMinCodeSize_startRegisters_eq]
  by_cases h7 : 7 ≤ d.toNat
  · rw [packBits_empty_byte rfl rfl rfl hfits (by simp only [initWidth]; omega) (by simp only [initWidth]; omega)]
    simp only [if_pos h7]
  · rw [packBits_empty_short rfl rfl hfits (by simp only [initWidth]; omega)]
    simp only [if_neg h7]

end Sys2Proof.Machine

open Sys2Proof Sys2Proof.Machine

/-- Settles O19: a command by its inversion lemma, the other events directly. -/
theorem phaseFollowsTransitionTable : Obligations.PhaseFollowsTransitionTable := by
  intro s t ht
  rcases step_next ht with ⟨hi, rfl⟩ | ⟨w, rest, hi, hx⟩ | ⟨w, rest, hi, rfl⟩ | ⟨rest, hi, rfl⟩ | ⟨o, rest, hi, rfl⟩
  · simp only [hi]
  · simp only [hi]
    exact (exec_control hx).trans rfl
  · simp only [hi]
  · simp only [hi, consumerTake_phase, consumerTake_errcode]
  · simp only [hi, applyReset_phase, applyReset_errcode]

/-- Settles O20: the checks in order, then the clear code into an empty packer. -/
theorem startOpensRaster : Obligations.StartOpensRaster := by
  intro s d
  refine ⟨whenLegal_of_err _ _, fun hp => execStart_of_run hp, fun hp => ⟨fun hd => ?_, fun h2 h8 => ?_⟩⟩
  · have hillegal : ¬ depthLegal d = true := fun hl => by have := depthLegal_iff.1 hl; omega
    exact (execStart_of_idle_or_done hp).trans (if_neg hillegal)
  · calc execStart d s = startRaster d s :=
          (execStart_of_idle_or_done hp).trans (if_pos (depthLegal_iff.2 ⟨h2, h8⟩))
      _ = _ := startRaster_eq h2 h8 s

/-- Settles O21: case A of R113. -/
theorem firstPixelWaitsInPrefix : Obligations.FirstPixelWaitsInPrefix := by
  intro s p hp hlt hh
  rw [← literalCode_eq_ofNat]
  exact (execPix_of_run hp hlt).trans (consumePixel_first hh)

/-- Settles O22: case B of R113. -/
theorem knownPairExtendsMatch : Obligations.KnownPairExtendsMatch := fun _ _ _ hp hlt hh hc =>
  (execPix_of_run hp hlt).trans (consumePixel_known hh hc)
end

section
/-! PROOF. A novel pair: what is packed, what is entered, and what an accepted pixel leaves unchanged
(40_dictionary_builder.md R113, R114; 41_code_writer.md R131 to R135). -/

namespace Sys2Proof.Machine

open Reference

theorem widthUpdate_eq (s : State) : widthUpdate s = { s with width := (widthUpdate s).width } := by
  unfold widthUpdate
  split <;> rfl

/-- R132: at 12 bits the width update does nothing. -/
theorem widthUpdate_of_twelve {s : State} (h : s.width.toNat = 12) : widthUpdate s = s := by
  unfold widthUpdate
  rw [if_neg (by simp [h])]

section Novel
variable {s : State} {p : Pixel}

/-- R113 case C1: the registers of the answer, and the dictionary as the insertion's. -/
theorem entered_eq {u : State} (hu : OnlyPackerChanged s u) :
    setPrefix (literalCode p) (extendDict s.prefixCode p (widthUpdate u)) = { u with
      width := if s.width.toNat < 12 ∧ 2 ^ s.width.toNat ≤ s.nextCode.toNat then s.width + 1 else s.width
      nextCode := BitVec.ofNat 13 (s.nextCode.toNat + 1)
      prefixCode := BitVec.ofNat 12 p.toNat
      dict := Assoc.put s.dict (dictKey s.prefixCode p) (BitVec.ofNat 12 s.nextCode.toNat) } := by
  obtain ⟨-, -, -, -, -, -, hnext, hdict, -⟩ := hu.fields
  have hwidth : (widthUpdate u).width =
      if s.width.toNat < 12 ∧ 2 ^ s.width.toNat ≤ s.nextCode.toNat then s.width + 1 else s.width :=
    hu.widthUpdate_width.trans (widthUpdate_width s)
  have hsucc : s.nextCode + 1 = BitVec.ofNat 13 (s.nextCode.toNat + 1) := BitVec.eq_of_toNat_eq (by simp)
  rw [← hwidth, ← literalCode_eq_ofNat, ← hsucc, BitVec.ofNat_toNat, ← hnext, ← hdict, widthUpdate_eq u]
  rfl

/-- R113 case C2, R134: the registers of the answer. -/
theorem cleared_eq {v : State} (hdepth : v.depth = s.depth) :
    setPrefix (literalCode p) (freshTable v) = { v with
      dict := []
      nextCode := BitVec.ofNat 13 (2 ^ s.depth.toNat + 2)
      width := BitVec.ofNat 4 (s.depth.toNat + 1)
      prefixCode := BitVec.ofNat 12 p.toNat } := by
  rw [← literalCode_eq_ofNat, ← hdepth]
  rfl

/-- R114 items 6 and 7: under R37 a novel pair at a full table packs its code and `CLEAR` in 12 bits each. -/
theorem RunInv.packs_clear (h : RunInv s) (hh : s.havePrefix = true) (hfull : 4096 ≤ s.nextCode.toNat) :
    ∃ u v, packBits s.prefixCode.toNat s.width.toNat s = .next u ∧
      packBits (clearCode s.depth) (widthUpdate s).width.toNat (widthUpdate u) = .next v ∧
      widthUpdate u = u ∧ (widthUpdate s).width.toNat = 12 ∧ OnlyPackerChanged s v := by
  have hwidth := h.widthUpdate_of_full hfull
  obtain ⟨u, hu, honly, hready⟩ := packBits_ready h.packer h.width_le (h.prefix_fits hh)
  obtain ⟨v, hv, honly', -⟩ := packBits_ready hready.widthUpdate (Nat.le_refl 12) h.clear_fits
  obtain ⟨-, -, -, -, -, hw, -⟩ := honly.fields
  have hsame : widthUpdate u = u := widthUpdate_of_twelve (by rw [hw, h.width_of_full hfull])
  refine ⟨u, v, hu, by rw [hwidth, hv], hsame, hwidth, honly.trans ?_⟩
  rwa [hsame] at honly'

theorem pixelBits_entered (hh : s.havePrefix = true) (hl : dictLookup s.prefixCode p s = none)
    (hroom : s.nextCode.toNat < 4096) : pixelBits p s = s.width.toNat := by
  unfold pixelBits
  rw [if_pos hh, hl]
  exact if_pos hroom

theorem pixelBits_cleared (hh : s.havePrefix = true) (hl : dictLookup s.prefixCode p s = none)
    (hfull : 4096 ≤ s.nextCode.toNat) : pixelBits p s = s.width.toNat + (widthUpdate s).width.toNat := by
  unfold pixelBits
  rw [if_pos hh, hl]
  exact if_neg (Nat.not_lt.2 hfull)

/-- R150, R151: the elements of `BLK` that an accepted pixel may store to. -/
theorem execPix_read_eq {t : State} (hp : s.phase = .run) (hlt : p.toNat < 2 ^ s.depth.toNat)
    (h : execPix p s = .next t) {i : Nat} (hi : ¬ packStoresTo s (pixelBits p s) i) :
    Memory.read t.blk i = Memory.read s.blk i := by
  have hne : ∀ j < (s.nacc.toNat + pixelBits p s) / 8, i ≠ (s.blkcnt.toNat + j) % 254 := fun j hj e => hi ⟨j, hj, e⟩
  rcases execPix_cases hp hlt h with ⟨-, rfl⟩ | ⟨-, c, -, rfl⟩ | ⟨hh, hl, hn⟩
  · rfl
  · rfl
  · obtain ⟨u, hu, ⟨hroom, rfl⟩ | ⟨hfull, v, hv, rfl⟩⟩ := novelPair_next hn
    · rw [pixelBits_entered hh hl hroom] at hne
      obtain ⟨-, hstored, -⟩ := packBits_next hu
      rw [setPrefix_blk, extendDict_blk, widthUpdate_blk, hstored.read_eq i hne]
    · have hbits := pixelBits_cleared hh hl hfull
      obtain ⟨-, hstored, hnacc⟩ := packBits_next hu
      obtain ⟨-, hstored', -⟩ := packBits_next hv
      have hboth := (hstored.congr (widthUpdate_blk u) (widthUpdate_blkcnt u) (widthUpdate_out u)).trans hstored'
      rw [widthUpdate_nacc, hnacc, show (s.nacc.toNat + s.width.toNat) / 8 +
        ((s.nacc.toNat + s.width.toNat) % 8 + (widthUpdate s).width.toNat) / 8 =
          (s.nacc.toNat + pixelBits p s) / 8 by omega] at hboth
      exact hboth.read_eq i hne

/-- R113: the registers and ports that an accepted pixel does not write. -/
theorem execPix_kept {t : State} (hp : s.phase = .run) (hlt : p.toNat < 2 ^ s.depth.toNat)
    (h : execPix p s = .next t) : t = { s with
      havePrefix := true, prefixCode := t.prefixCode, width := t.width, nextCode := t.nextCode, acc := t.acc,
      nacc := t.nacc, blk := t.blk, blkcnt := t.blkcnt, dict := t.dict, out := t.out } := by
  rcases execPix_cases hp hlt h with ⟨-, rfl⟩ | ⟨hh, c, -, rfl⟩ | ⟨hh, -, hn⟩
  · rfl
  · rw [← hh]
    rfl
  · obtain ⟨hphase, herr, hdepth, hpre, htaken, hinput, hmcs, hresets⟩ := novelPair_fields hn
    rw [← hh, ← hphase, ← herr, ← hdepth, ← hpre, ← htaken, ← hinput, ← hmcs, ← hresets]

/-- R113: cases A and B write `PREFIX` and `HAVE_PREFIX` only. -/
theorem execPix_kept_of_not_novel {t : State} (hp : s.phase = .run) (hlt : p.toNat < 2 ^ s.depth.toNat)
    (h : execPix p s = .next t) (hcase : s.havePrefix = false ∨ dictLookup s.prefixCode p s ≠ none) :
    t = { s with havePrefix := true, prefixCode := t.prefixCode } := by
  rcases execPix_cases hp hlt h with ⟨-, rfl⟩ | ⟨hh, c, -, rfl⟩ | ⟨hh, hl, -⟩
  · rfl
  · rw [← hh]
    rfl
  · rcases hcase with hf | hs
    · rw [hh] at hf
      cases hf
    · exact absurd hl hs

/-- R113, R114: with a code left no pair but the pixel's own is looked up otherwise than before. -/
theorem execPix_lookup_eq {t : State} (hp : s.phase = .run) (hlt : p.toNat < 2 ^ s.depth.toNat)
    (h : execPix p s = .next t) (hroom : s.nextCode.toNat < 4096) {q' : Code} {p' : Pixel}
    (hne : ¬ (q' = s.prefixCode ∧ p' = p)) : dictLookup q' p' t = dictLookup q' p' s := by
  rcases execPix_cases hp hlt h with ⟨-, rfl⟩ | ⟨-, c, -, rfl⟩ | ⟨-, -, hn⟩
  · rfl
  · rfl
  · obtain ⟨u, hu, ⟨-, rfl⟩ | ⟨hfull, -⟩⟩ := novelPair_next hn
    · rw [entered_eq (packBits_only hu), dictLookup_put (s := s) rfl, if_neg hne]
    · omega

end Novel

end Sys2Proof.Machine

open Sys2Proof Sys2Proof.Machine

/-- Settles O23: R37 makes the packing answer; the insertion is at an absent pair. -/
theorem novelPairEmitsThenInserts : Obligations.NovelPairEmitsThenInserts := by
  intro s p hs hp hlt hh hl hroom
  obtain ⟨u, hu, honly, -⟩ := packBits_ready hs.packer hs.width_le (hs.prefix_fits hh)
  have heq := entered_eq (p := p) honly
  have hexec : exec (.pix p) s = .next (setPrefix (literalCode p) (extendDict s.prefixCode p (widthUpdate u))) :=
    ((execPix_of_run hp hlt).trans (consumePixel_novel hh hl)).trans (novelPair_entered hu hroom)
  rw [heq] at hexec
  exact ⟨u, _, hu, honly, hexec, rfl, Assoc.length_put_of_absent _ hl, dictLookup_put rfl⟩

/-- Settles O24: at a full table the width is 12, so that `CLEAR` follows in 12 bits. -/
theorem novelPairAtFullTableClears : Obligations.NovelPairAtFullTableClears := by
  intro s p hs hp hlt hh hl hnext
  have hfull : 4096 ≤ s.nextCode.toNat := Nat.le_of_eq hnext.symm
  obtain ⟨u, v, hu, hv, hsame, hwidth, honly⟩ := hs.packs_clear hh hfull
  obtain ⟨-, -, hdepth, -⟩ := honly.fields
  have hexec : exec (.pix p) s = .next (setPrefix (literalCode p) (freshTable v)) :=
    ((execPix_of_run hp hlt).trans (consumePixel_novel hh hl)).trans (novelPair_cleared hu hfull hv)
  rw [cleared_eq hdepth] at hexec
  rw [hs.width_of_full hfull] at hu
  rw [hwidth, hsame] at hv
  exact ⟨u, v, hu, hv, honly, hexec⟩

/-- Settles O25, by the cases of R113. -/
theorem pixelFrame : Obligations.PixelFrame := by
  intro s p t hp hlt h
  obtain ⟨bs, hout⟩ := (exec_answers h).storage.out_prefix
  obtain ⟨-, -, -, hresets⟩ := (exec_answers h).world
  exact ⟨execPix_kept hp hlt h, execPix_kept_of_not_novel hp hlt h, ⟨bs, hout.symm⟩,
    fun i hi => blkRead_congr (execPix_read_eq hp hlt h hi) hresets, fun hroom _ _ => execPix_lookup_eq hp hlt h hroom⟩
end

section
/-! PROOF. The end of a raster, and the bounds on the work of one command (40_dictionary_builder.md R116, R119). -/

namespace Sys2Proof.Reference

theorem length_fullBlocks (bs : List (BitVec 8)) : (fullBlocks bs).length = bs.length / 254 * 255 := by
  have hgroup : ∀ g ∈ List.range (bs.length / 254), (254#8 :: (bs.drop (254 * g)).take 254).length = 255 := by
    intro g hg
    have hlt := List.mem_range.1 hg
    rw [List.length_cons, List.length_take, List.length_drop]
    omega
  rw [fullBlocks, List.length_flatMap, List.map_congr_left hgroup, List.map_const', List.sum_replicate, List.length_range]
  rfl

end Sys2Proof.Reference

namespace Sys2Proof.Machine

open Reference

/-! ## FINISH -/

/-- R116, R155: the number that the bits waiting in `ACC`, the pending code and `EOI` spell. -/
def finishValue (s : State) : Nat :=
  s.acc.toNat + s.prefixCode.toNat * 2 ^ s.nacc.toNat + eoiCode s.depth * 2 ^ (s.nacc.toNat + s.width.toNat)

/-- R116: the data bytes still to be framed at `FINISH`: those that wait, and those of the last bits. -/
def finishData (s : State) : List Byte :=
  pendingBytes s ++ lowBytes ((s.nacc.toNat + finishBits s + 7) / 8) (finishValue s)

theorem flushBlock_blk {s t : State} (h : flushBlock s = .next t) : t.blk = s.blk := by
  rw [flushBlock_eq (flushBlock_bound h)] at h
  injection h with h
  rw [← h]

/-- R150, R151, R153: the elements of `BLK` that `FINISH` may store to. -/
theorem finishRaster_read_eq {s u v x y : State} (hu : packBits s.prefixCode.toNat s.width.toNat s = .next u)
    (hv : packBits (eoiCode s.depth) (widthUpdate s).width.toNat (widthUpdate u) = .next v)
    (hx : drain v = .next x) (hy : flushBlock x = .next y) {i : Nat}
    (hi : ∀ j < (s.nacc.toNat + finishBits s + 7) / 8, i ≠ (s.blkcnt.toNat + j) % 254) :
    Memory.read y.blk i = Memory.read s.blk i := by
  obtain ⟨-, hcode, hnacc⟩ := packBits_next hu
  obtain ⟨-, heoi, hnacc'⟩ := packBits_next hv
  have hlast := drain_next (by omega) hx
  have hall := ((hcode.congr (widthUpdate_blk u) (widthUpdate_blkcnt u) (widthUpdate_out u)).trans heoi).trans hlast
  have hbits : finishBits s = s.width.toNat + (widthUpdate s).width.toNat := rfl
  rw [widthUpdate_nacc] at hall hnacc'
  rw [flushBlock_blk hy]
  exact hall.read_eq i fun j hj => hi j (by omega)

theorem Streamed.widthUpdate {s t : State} {value total : Nat} (h : Streamed s t value total) :
    Streamed s (widthUpdate t) value total :=
  h.congr (by simp) (by simp) (by simp) (by simp) (by simp) (by simp)

/-- R116: under R37 a pending code makes `FINISH` complete the raster. -/
theorem RunInv.finishes {s : State} (h : RunInv s) (hp : s.phase = .run) (hh : s.havePrefix = true) :
    ∃ t, execFinish s = .next t ∧
      t = { s with
        phase := .done
        havePrefix := false
        width := (widthUpdate s).width
        acc := 0
        nacc := 0
        blk := t.blk
        blkcnt := 0
        out := s.out ++ frame (finishData s) } ∧
      ∀ i, (∀ j < (s.nacc.toNat + finishBits s + 7) / 8, i ≠ (s.blkcnt.toNat + j) % 254) →
        Memory.read t.blk i = Memory.read s.blk i := by
  obtain ⟨u, hu, su⟩ := (Streamed.start h.packer).pack h.width_le (h.prefix_fits hh)
  obtain ⟨v, hv, sv⟩ := su.widthUpdate.pack (widthUpdate_le h.width_le) h.eoi_fits
  obtain ⟨x, y, hx, hy, hout, hacc, hnacc, hcount⟩ := sv.finish
  rw [Nat.add_assoc s.nacc.toNat] at hout
  change (terminate y).out = s.out ++ frame (finishData s) at hout
  obtain ⟨herr, hdepth, hpre, hwidth, hnext, hdict, htaken, hinput, hmcs, hresets⟩ := finishRaster_fields hu hv hx hy
  refine ⟨{ terminate y with havePrefix := false, phase := .done }, ?_, ?_, fun i => finishRaster_read_eq hu hv hx hy⟩
  · rw [execFinish_of_run hp, if_pos hh, finishRaster_eq hu hv hx hy]
  · rw [← hout, ← herr, ← hdepth, ← hpre, ← hwidth, ← hnext, ← hdict, ← htaken, ← hinput, ← hmcs, ← hresets, ← hacc,
      ← hnacc, ← hcount]
    rfl

/-! ## R119: how much one command does -/

theorem length_openedRaster_out_le (d : DepthField) (s : State) : (openedRaster d s).out.length ≤ s.out.length + 1 := by
  have hout : (openedRaster d s).out = s.out ++ (if s.emitMcs then [BitVec.ofNat 8 d.toNat] else []) := rfl
  rw [hout, List.length_append]
  split <;> simp

section Bounds
variable {s : State}

theorem RunInv.finishBits_le (h : RunInv s) : finishBits s ≤ 24 :=
  Nat.add_le_add h.width_le (widthUpdate_le h.width_le)

theorem RunInv.pixelBits_le (h : RunInv s) (p : Pixel) : pixelBits p s ≤ 24 := by
  have hwidth := h.width_le
  have hupdated := widthUpdate_le h.width_le
  unfold pixelBits
  split
  · split
    · exact Nat.zero_le _
    · split <;> omega
  · exact Nat.zero_le _

/-- What a packing that answers adds to the stream. -/
theorem Streamed.packed {t u : State} {value total c w : Nat} (h : Streamed s t value total) (hw : w ≤ 12)
    (hc : c < 2 ^ w) (hu : packBits c w t = .next u) : Streamed s u (value + c * 2 ^ total) (total + w) := by
  obtain ⟨u', hu', hstream⟩ := h.pack hw hc
  rw [hu] at hu'
  cases hu'
  exact hstream

/-- R113, R155: a novel pair adds `pixelBits` bits to the stream. -/
theorem RunInv.novelPair_streamed {t : State} {p : Pixel} (h : RunInv s) (hh : s.havePrefix = true)
    (hl : dictLookup s.prefixCode p s = none) (hn : novelPair p s = .next t) :
    ∃ value, Streamed s t value (s.nacc.toNat + pixelBits p s) := by
  obtain ⟨u, hu, hcase⟩ := novelPair_next hn
  have hcode := (Streamed.start h.packer).packed h.width_le (h.prefix_fits hh) hu
  rcases hcase with ⟨hroom, rfl⟩ | ⟨hfull, v, hv, rfl⟩
  · rw [pixelBits_entered hh hl hroom]
    exact ⟨_, hcode.widthUpdate.congr rfl rfl rfl rfl rfl rfl⟩
  · have hfits : clearCode s.depth < 2 ^ (widthUpdate s).width.toNat := h.widthUpdate_of_full hfull ▸ h.clear_fits
    have hclear := hcode.widthUpdate.packed (widthUpdate_le h.width_le) hfits hv
    rw [pixelBits_cleared hh hl hfull, ← Nat.add_assoc]
    exact ⟨_, hclear.congr rfl rfl rfl rfl rfl rfl⟩

/-- R119: a pixel frames at most one full sub-block. -/
theorem RunInv.length_pixel_out_le {t : State} {p : Pixel} (h : RunInv s) (hp : s.phase = .run)
    (ht : execPix p s = .next t) : t.out.length ≤ s.out.length + 255 := by
  rcases execPix_next ht with ⟨-, rfl⟩ | ⟨-, -, rfl⟩ | ⟨-, -, rfl⟩ |
    ⟨-, -, ⟨-, rfl⟩ | ⟨-, c, -, rfl⟩ | ⟨hh, hl, hn⟩⟩
  · exact Nat.le_add_right _ _
  · exact Nat.le_add_right _ _
  · exact Nat.le_add_right _ _
  · exact Nat.le_add_right _ _
  · exact Nat.le_add_right _ _
  · obtain ⟨value, hstream⟩ := h.novelPair_streamed hh hl hn
    have hbits := h.pixelBits_le p
    have hnacc := h.packer.nacc_le
    have hcount := h.packer.count_le
    rw [hstream.stored.out_eq, List.length_append, length_fullBlocks, List.length_append, pendingBytes_length,
      lowBytes_length]
    omega

/-- R119: `FINISH` frames at most 253 waiting bytes and four more. -/
theorem RunInv.length_finishData_le (h : RunInv s) : (finishData s).length ≤ 253 + 4 := by
  have hbits := h.finishBits_le
  have hnacc := h.packer.nacc_le
  have hcount := h.packer.count_le
  rw [finishData, List.length_append, pendingBytes_length, lowBytes_length]
  omega

/-- R116: what a `FINISH` that completes the raster appends to `OUT`. -/
theorem RunInv.finish_out {t : State} (h : RunInv s) (hp : s.phase = .run) (ht : execFinish s = .next t)
    (hdone : t.phase = .done) : t.out = s.out ++ frame (finishData s) := by
  cases hh : s.havePrefix with
  | false =>
    rw [execFinish_of_run hp, if_neg (by simp [hh])] at ht
    cases ht
    cases hdone
  | true =>
    obtain ⟨u, hu, heq, -⟩ := h.finishes hp hh
    rw [hu] at ht
    cases ht
    rw [heq]

/-- R119: `START` appends the minimum-code-size byte at most. -/
theorem length_start_out_le {t : State} {d : DepthField} (ht : execStart d s = .next t) :
    t.out.length ≤ s.out.length + 1 := by
  rcases execStart_next ht with ⟨-, rfl⟩ | ⟨-, rfl⟩ | ⟨-, -, rfl⟩ | ⟨-, h2, h8, hk⟩
  · exact Nat.le_add_right _ _
  · exact Nat.le_add_right _ _
  · exact Nat.le_add_right _ _
  · have hopened : startRaster d s = .next t := hk
    rw [startRaster_eq h2 h8] at hopened
    cases hopened
    exact length_openedRaster_out_le d s

end Bounds

end Sys2Proof.Machine

open Sys2Proof Sys2Proof.Machine

/-- Settles O26: the checks in order, then the end of the bit stream. -/
theorem finishCompletesRaster : Obligations.FinishCompletesRaster := by
  refine ⟨fun s => whenLegal_of_err _ _, fun s => execFinish_of_idle_or_done, fun s hp hh => ?_, fun s hs hp hh => ?_⟩
  · exact (execFinish_of_run hp).trans (if_neg (by simp [hh]))
  · obtain ⟨t, ht, heq, hread⟩ := hs.finishes hp hh
    have hwidth := widthUpdate_toNat hs.width_le
    have hbits : s.nacc.toNat + finishBits s = s.nacc.toNat + s.width.toNat + (widthUpdate s).width.toNat :=
      (Nat.add_assoc ..).symm
    have hofNat : BitVec.ofNat 4 (widthUpdate s).width.toNat = (widthUpdate s).width := by simp
    simp only [finishData, finishValue, hbits] at heq hread
    simp only [← hwidth, hofNat]
    have hresets : t.resets = s.resets := by rw [heq]
    exact ⟨t, ht, heq, fun i hi => blkRead_congr (hread i hi) hresets⟩

/-- Settles O41, command by command. -/
theorem workPerCommandIsBounded : Obligations.WorkPerCommandIsBounded := by
  refine ⟨fun s d t _ ht => length_start_out_le ht, fun s p t hs hp ht => ?_, fun s t hs hp ht hdone => ?_⟩
  · have hbits := hs.pixelBits_le p
    have hnacc := hs.packer.nacc_le
    exact ⟨hbits, by omega, hs.length_pixel_out_le hp ht⟩
  · have hbits := hs.finishBits_le
    have hnacc := hs.packer.nacc_le
    exact ⟨hbits, by omega, finishData s, hs.length_finishData_le, hs.finish_out hp ht hdone⟩
end

section
/-! PROOF. Under R37 every command, and so every event at the ports, answers a next state (41_code_writer.md R133;
42_bit_packer.md R150, R151). -/

namespace Sys2Proof.Machine

/-! ## The commands -/

/-- R176: the shared checks answer, so a command answers if its performance in a legal phase does. -/
theorem whenLegal_answers {legal : List Phase} {s : State} {k : Result} (hk : s.phase ∈ legal → ∃ t, k = .next t) :
    ∃ t, whenLegal legal s k = .next t := by
  rcases whenLegal_cases legal s k with ⟨-, h⟩ | ⟨-, hlegal, h⟩ | ⟨-, -, h⟩
  · exact ⟨s, h⟩
  · rw [h]
    exact hk hlegal
  · exact ⟨raise .seq s, h⟩

/-- R110: `START` packs into an empty packer, so it answers in every state. -/
theorem execStart_answers (d : DepthField) (s : State) : ∃ t, execStart d s = .next t := by
  refine whenLegal_answers fun _ => ?_
  split
  next hd =>
    obtain ⟨h2, h8⟩ := depthLegal_iff.1 hd
    exact ⟨_, startRaster_eq h2 h8 s⟩
  next => exact ⟨_, rfl⟩

/-- R113 case C: the code in `PREFIX` fits `WIDTH`, as does the `CLEAR` that follows it at a full table. -/
theorem RunInv.novelPair_answers {s : State} (h : RunInv s) (hh : s.havePrefix = true) (p : Pixel) :
    ∃ t, novelPair p s = .next t := by
  rcases Nat.lt_or_ge s.nextCode.toNat 4096 with hroom | hfull
  · obtain ⟨u, hu, -⟩ := packBits_ready h.packer h.width_le (h.prefix_fits hh)
    exact ⟨_, novelPair_entered hu hroom⟩
  · obtain ⟨u, v, hu, hv, -⟩ := h.packs_clear hh hfull
    exact ⟨_, novelPair_cleared hu hfull hv⟩

/-- R113: cases A and B pack nothing. -/
theorem RunInv.consumePixel_answers {s : State} (h : RunInv s) (p : Pixel) : ∃ t, consumePixel p s = .next t := by
  cases hh : s.havePrefix with
  | false => exact ⟨_, consumePixel_first hh⟩
  | true =>
    cases hl : dictLookup s.prefixCode p s with
    | some c => exact ⟨_, consumePixel_known hh hl⟩
    | none =>
      rw [consumePixel_novel hh hl]
      exact h.novelPair_answers hh p

theorem execPix_answers {s : State} (h : s.phase = .run → RunInv s) (p : Pixel) : ∃ t, execPix p s = .next t := by
  refine whenLegal_answers fun hp => ?_
  split
  · exact (h (List.mem_singleton.1 hp)).consumePixel_answers p
  · exact ⟨_, rfl⟩

theorem execFinish_answers {s : State} (h : s.phase = .run → RunInv s) : ∃ t, execFinish s = .next t := by
  refine whenLegal_answers fun hp => ?_
  have hrun := List.mem_singleton.1 hp
  split
  next hh =>
    obtain ⟨t, ht, -⟩ := (h hrun).finishes hrun hh
    exact ⟨t, by rwa [execFinish_of_run hrun, if_pos hh] at ht⟩
  next => exact ⟨_, rfl⟩

theorem execIllegal_answers (w : CmdWord) (s : State) : ∃ t, execIllegal w s = .next t := by
  unfold execIllegal
  split
  · exact ⟨_, rfl⟩
  · exact ⟨_, rfl⟩

theorem exists_exec_next {s : State} (h : s.phase = .run → RunInv s) (i : Instr) : ∃ t, exec i s = .next t := by
  cases i with
  | start d => exact execStart_answers d s
  | pix p => exact execPix_answers h p
  | finish => exact execFinish_answers h
  | illegal w => exact execIllegal_answers w s

end Sys2Proof.Machine

open Sys2Proof Sys2Proof.Machine

/-- Settles O36: only a command can stop the machine, and R37 rules that out for each. -/
theorem invariantStatesNeverStop : Obligations.InvariantStatesNeverStop := by
  intro s hs
  cases hi : s.input with
  | nil => exact ⟨_, step_idle hi⟩
  | cons e rest =>
    cases e with
    | accept w =>
      rw [step_accept hi]
      exact exists_exec_next (hs.with_ports rest hs.taken_le).running (decodeWord w)
    | wait w => exact ⟨_, step_wait hi⟩
    | take => exact ⟨_, step_take hi⟩
    | rst offered => exact ⟨_, step_rst hi⟩
end

section
/-! PROOF. The bit packer's operations one by one, and the raster in progress (42_bit_packer.md R150 to R152, R155). -/

namespace Sys2Proof.Machine

open Reference

theorem flushBlock_of_pending {s : State} (h0 : s.blkcnt ≠ 0) (h : s.blkcnt.toNat ≤ 254) :
    flushBlock s = .next { s with out := s.out ++ s.blkcnt :: pendingBytes s, blkcnt := 0 } := by
  unfold flushBlock
  rw [if_neg h0, if_pos h]
  rfl

theorem flushBlock_of_empty {s : State} (h0 : s.blkcnt = 0) : flushBlock s = .next s := if_pos h0

section Stored
variable {s t : State} {b : Byte} {bs : List Byte}

/-- R151: `BLKCNT` counts on through the sub-blocks already written out. -/
theorem Stored.count_eq (h : Stored s t bs) : t.blkcnt.toNat = (s.blkcnt.toNat + bs.length) % 254 := by
  rw [← pendingBytes_length t, h.pending_eq, lastGroup_length, List.length_append, pendingBytes_length]

theorem Stored.of_short (h : Stored s t [b]) (hlt : s.blkcnt.toNat < 253) :
    t.out = s.out ∧ pendingBytes t = pendingBytes s ++ [b] := by
  obtain ⟨hfull, hlast⟩ := blocks_push_short (bs := pendingBytes s) b (by rw [pendingBytes_length]; omega)
  exact ⟨by rw [h.out_eq, hfull, List.append_nil], by rw [h.pending_eq, hlast]⟩

theorem Stored.of_full (h : Stored s t [b]) (heq : s.blkcnt.toNat = 253) :
    t.out = s.out ++ 254#8 :: (pendingBytes s ++ [b]) ∧ t.blkcnt = 0 := by
  obtain ⟨hfull, -⟩ := blocks_push_full (bs := pendingBytes s) b (by rw [pendingBytes_length]; omega)
  have hcount : t.blkcnt.toNat = 0 := by rw [h.count_eq, heq, List.length_singleton]
  exact ⟨by rw [h.out_eq, hfull], BitVec.eq_of_toNat_eq hcount⟩

end Stored

/-- R110, R113: the run of `START` and of the raster's pixels so far: the machine follows the reference encoder, and the
raster's bytes go out from a packer `z` that holds nothing back. -/
theorem run_started_raster {s : State} {d : DepthField} {ps : List Pixel} {rest : List PortEvent}
    (hphase : s.phase = .idle ∨ s.phase = .done) (herr : s.errcode = .none) (h2 : 2 ≤ d.toNat) (h8 : d.toNat ≤ 8)
    (hps : ∀ p ∈ ps, p.toNat < 2 ^ d.toNat) (hinput : s.input = send (.start d :: ps.map .pix) ++ rest) :
    ∃ z t, Sys2Proof.core.run (ps.length + 1) s = .next t ∧
      Follows z t d.toNat (encoderAfter d.toNat (ps.map (·.toNat))) ∧
      z.input = rest ∧ pendingBytes z = [] ∧
      z.out = s.out ++ (if s.emitMcs then [BitVec.ofNat 8 d.toNat] else []) := by
  obtain ⟨t, ht, hstart⟩ := follows_start (s := { s with input := send (ps.map .pix) ++ rest }) hphase herr h2 h8
  obtain ⟨u, hu, hpixels⟩ := hstart.run_pixels (rest := rest) ps [] hps (by rw [hstart.input_eq]; simp)
  refine ⟨_, u, ?_, hpixels, rfl, pendingBytes_empty (by simp), emitMinCodeSize_startRegisters_out d _⟩
  rw [Nat.add_comm, run_add (run_command rfl hinput ht), hu]

end Sys2Proof.Machine

open Sys2Proof Sys2Proof.Machine

/-- Settles O29, by the two cases of `FlushBlock` that R31 leaves. -/
theorem flushBlockWritesLengthThenBytes : Obligations.FlushBlockWritesLengthThenBytes :=
  ⟨fun _ => flushBlock_of_empty, fun _ => flushBlock_of_pending⟩

/-- Settles O28: the byte joins the waiting ones as the framing of R155 says, below 253 and at 253. -/
theorem putByteFramesFullBlock : Obligations.PutByteFramesFullBlock := by
  intro b s hcount
  obtain ⟨t, ht, hstored⟩ := putByte_stored b hcount
  exact ⟨t, ht, putByte_only ht, hstored.count_le, (putByte_storedAtMost ht).written, hstored.of_short, hstored.of_full⟩

/-- Settles O27: packing answers within its preconditions, and the bytes it completes are stored in order. -/
theorem packBitsAppendsCodeBits : Obligations.PackBitsAppendsCodeBits := by
  intro c w s _ hw hc hnacc hacc hcount total value stored
  obtain ⟨t, ht, hstored, hrest, hbits⟩ := packBits_stored hcount hnacc hacc hw hc
  obtain ⟨honly, hkept, -⟩ := packBits_next ht
  have hfits : t.acc.toNat < 2 ^ t.nacc.toNat := by
    rw [hrest, hbits]
    exact remainder_lt (appended_lt hacc hc)
  exact ⟨t, ht, honly, hbits, hrest, hfits, hstored.out_eq, hstored.pending_eq,
    by rw [hstored.count_eq, Reference.lowBytes_length], hkept.written⟩

/-- Settles O42: the run of the raster so far keeps the machine where the reference encoder is. -/
theorem rasterInProgressMatchesReference : Obligations.RasterInProgressMatchesReference := by
  intro s d ps rest hphase herr h2 h8 hps hinput e total value whole
  obtain ⟨z, t, hrun, h, hin, hempty, hopened⟩ := run_started_raster hphase herr h2 h8 hps hinput
  have hout := h.stream.stored.out_eq
  have hpending := h.stream.stored.pending_eq
  rw [hempty, List.nil_append] at hout hpending
  have hcount : t.blkcnt.toNat = total / 8 % 254 := by
    rw [← pendingBytes_length t, hpending, Reference.lastGroup_length, Reference.lowBytes_length]
  exact ⟨t, hrun, h.phase_eq, h.inv.no_error, BitVec.eq_of_toNat_eq h.depth_eq, h.input_eq.trans hin, h.prefix_iff,
    h.prefix_eq, h.next_eq, h.inv.width_eq h.depth_eq h.next_eq, h.dict_eq, h.stream.nacc_eq, h.stream.acc_eq, hcount,
    by rw [hout, hopened], hpending⟩
end

section
/-! PROOF. How each fault is raised, that a raise is all a faulting command does, and what phase `ERR` discards
(60_exceptions.md R171 to R180). -/

namespace Sys2Proof.Machine

/-! ## Outside `ERR` -/

theorem execIllegal_of_ne_err {s : State} (w : CmdWord) (h : s.phase ≠ .err) : execIllegal w s = .next (raise .cmd s) :=
  if_neg h

theorem execPix_of_idle_or_done {s : State} (p : Pixel) (h : s.phase = .idle ∨ s.phase = .done) :
    execPix p s = .next (raise .seq s) :=
  whenLegal_of_not_mem _ (by rcases h with h | h <;> simp [h]) (by rcases h with h | h <;> simp [h])

theorem execPix_outside_palette {s : State} {p : Pixel} (h : s.phase = .run) (hge : 2 ^ s.depth.toNat ≤ p.toNat) :
    execPix p s = .next (raise .range s) :=
  (whenLegal_of_mem _ (by simp [h]) (by simp [h])).trans (if_neg fun hp => Nat.not_lt.2 hge (pixelInPalette_iff.1 hp))

/-- R174: a pixel of the palette raises nothing. -/
theorem execPix_stays_in_run {s t : State} {p : Pixel} (hp : s.phase = .run) (hlt : p.toNat < 2 ^ s.depth.toNat)
    (h : execPix p s = .next t) : t.phase = .run := by
  have hcontrol := execPix_control h
  simp only [phaseTable, hp, hlt, if_true, Prod.mk.injEq] at hcontrol
  exact hcontrol.1

/-- R86: the three classes of words that name no command. -/
theorem decodeWord_of_illegal_class {w : CmdWord}
    (h : w.toNat / 256 = 3 ∨ (w.toNat / 256 = 0 ∧ w.toNat % 256 / 16 ≠ 0) ∨
      (w.toNat / 256 = 2 ∧ w.toNat % 256 ≠ 0)) : decodeWord w = .illegal w := by
  rcases h with hop | ⟨hop, hhigh⟩ | ⟨hop, harg⟩
  · exact decodeWord_reserved hop
  · exact decodeWord_start_illegal hop hhigh
  · exact decodeWord_finish_illegal hop harg

/-- R171: of the answers to a command outside `ERR`, only a raise ends in `ERR`. -/
theorem Answers.raised_of_err {i : Instr} {s t : State} (h : Answers s i t) (hs : s.phase ≠ .err)
    (ht : t.phase = .err) : ∃ e, e ≠ ErrCode.none ∧ t = raise e s := by
  rcases h.control with (rfl | hraised) | ⟨-, ⟨d, -, -, -, hrun, -⟩ | ⟨-, -, hrun | ⟨hdone, -⟩⟩⟩
  · exact absurd ht hs
  · exact hraised
  · simp [ht] at hrun
  · simp [ht] at hrun
  · simp [ht] at hdone

/-! ## In `ERR` -/

/-- R178: in `ERR` every instruction is discarded. -/
theorem exec_of_err {s : State} (i : Instr) (h : s.phase = .err) : exec i s = .next s := by
  cases i with
  | start d => exact whenLegal_of_err _ _ h
  | pix p => exact whenLegal_of_err _ _ h
  | finish => exact whenLegal_of_err _ _ h
  | illegal w => exact if_pos h

theorem step_accept_of_err {s : State} {w : CmdWord} {rest : List PortEvent} (h : s.phase = .err)
    (hi : s.input = .accept w :: rest) : step s = .next { s with input := rest } :=
  (step_accept hi).trans (exec_of_err _ h)

end Sys2Proof.Machine

open Sys2Proof Sys2Proof.Machine

/-- Settles O16: of the ways in which a command ends, only `raise` leads into `ERR`. -/
theorem faultingCommandHasNoOtherEffect : Obligations.FaultingCommandHasNoOtherEffect := fun _ _ _ h hs ht =>
  (exec_answers h).raised_of_err hs ht

/-- Settles O18, event by event: a command is discarded, and of the other events only `rst` writes `PHASE`, `ERRCODE`
or `OUT`. -/
theorem onlyResetLeavesErr : Obligations.OnlyResetLeavesErr := by
  intro s t hs ht
  rcases step_next ht with ⟨-, rfl⟩ | ⟨w, rest, hi, -⟩ | ⟨w, rest, -, rfl⟩ | ⟨rest, -, rfl⟩ | ⟨o, rest, hi, rfl⟩
  · exact .inl ⟨hs, rfl, rfl⟩
  · rw [step_accept_of_err hs hi] at ht
    injection ht with ht
    subst ht
    exact .inl ⟨hs, rfl, rfl⟩
  · exact .inl ⟨hs, rfl, rfl⟩
  · exact .inl ⟨(consumerTake_phase _).trans hs, consumerTake_errcode _, consumerTake_out _⟩
  · exact .inr ⟨⟨o, rest, hi⟩, rfl, rfl, rfl⟩

/-- Settles O11: each illegal class of R86 is read as an illegal word, and that raises `ERR_CMD`. -/
theorem illegalWordRaisesErrCmd : Obligations.IllegalWordRaisesErrCmd := by
  refine ⟨fun s w hs => execIllegal_of_ne_err w hs, fun s w rest hs hi hclass => ?_⟩
  rw [step_accept hi, decodeWord_of_illegal_class hclass]
  exact execIllegal_of_ne_err w hs

/-- Settles O12: the phase is tested before the operand, so the check of R175 decides for every operand. -/
theorem commandOutOfSequenceRaisesErrSeq : Obligations.CommandOutOfSequenceRaisesErrSeq := fun _ =>
  ⟨fun hrun _ => execStart_of_run hrun,
    fun hp => ⟨fun p => execPix_of_idle_or_done p hp, execFinish_of_idle_or_done hp⟩⟩

/-- Settles O13, which is R110's clause for an illegal depth. -/
theorem depthOutsideRangeRaisesErrDepth : Obligations.DepthOutsideRangeRaisesErrDepth := by
  intro s d hp hd
  obtain ⟨-, -, hlegalPhase⟩ := startOpensRaster s d
  exact (hlegalPhase hp).1 hd

/-- Settles O14: at `DEPTH = 8` the palette holds every 8-bit value. -/
theorem pixelOutsidePaletteRaisesErrRange : Obligations.PixelOutsidePaletteRaisesErrRange := by
  refine ⟨fun s p hp hge => execPix_outside_palette hp hge, fun s p t hp hd h => ?_⟩
  have hlt : p.toNat < 2 ^ s.depth.toNat := by rw [hd]; exact p.isLt
  exact execPix_stays_in_run hp hlt h

/-- Settles O15: `HAVE_PREFIX` is tested before anything is written. -/
theorem emptyRasterRaisesErrEmpty : Obligations.EmptyRasterRaisesErrEmpty := by
  intro s hp hh
  have hcheck := execFinish_of_run hp
  rw [hh] at hcheck
  exact hcheck

/-- Settles O17: no word is performed in `ERR`, and `cmd_ready` does not depend on the phase. -/
theorem errPhaseDiscardsEveryWord : Obligations.ErrPhaseDiscardsEveryWord := fun _ _ _ hs hi =>
  ⟨step_accept_of_err hs hi, rfl⟩
end
